-- ==== Sys2Proof/Word.lean ====
section
/-! DEFINITION. The 16-bit Word and the 8-bit byte of the machine (00_scope.md R4, R5). Addition, bitwise and
and complement of `BitVec 16` are the spec's `a + b`, `a & b` and `~a`: all wrap modulo 65536 (R5, R73). -/

namespace Sys2Proof

/-- A Word: "16-bit unsigned value; all arithmetic wraps modulo 65536" (00_scope.md R5). -/
abbrev Word := BitVec 16

/-- A byte of the input source or of the output sink (10_state.md R24, R25). -/
abbrev Byte := BitVec 8

end Sys2Proof
end

