-- ==== Sys2Proof/Machine/Memory.lean ====
section
/-! DEFINITION. The memory array `MEM`: 65536 Words, one flat space (10_state.md R17, 20_memory.md R38). The unit is
the 16-bit Word, "there is no byte address", so a cell is an address and a Word (log 1). The list is in one
canonical form: addresses strictly rising, no cell equal to what an unlisted address reads as. -/

namespace Sys2Proof.Machine

/-- One memory word at its address. -/
abbrev MemCell := Nat × Word

/-- The memory, as the list of the words that differ from `Memory.unlisted`. -/
abbrev Memory := List MemCell

/-- What an address with no cell reads as: "Memory is zero-initialized" (10_state.md R17). -/
def Memory.unlisted : Word := 0x0000

/-- The canonical form. -/
abbrev Memory.wf (m : Memory) : Prop :=
  m.Pairwise (fun c d => c.1 < d.1) ∧ ∀ c ∈ m, c.1 < 65536 ∧ c.2 ≠ Memory.unlisted

/-- `MEM[a]` (10_state.md R17). -/
def Memory.read (m : Memory) (a : Word) : Word :=
  match m.find? fun c => c.1 == a.toNat with
  | some c => c.2
  | none => Memory.unlisted

/-- Puts a cell before the first cell of a higher address. -/
def Memory.insertCell (c : MemCell) : Memory → Memory
  | [] => [c]
  | d :: m => if c.1 < d.1 then c :: d :: m else d :: Memory.insertCell c m

/-- `MEM[a] <- v` (10_state.md R17): all 16 bits, at every address (20_memory.md R33). -/
def Memory.write (m : Memory) (a v : Word) : Memory :=
  if v = Memory.unlisted then m.filter fun c => c.1 != a.toNat
  else Memory.insertCell (a.toNat, v) (m.filter fun c => c.1 != a.toNat)

end Sys2Proof.Machine
end

