-- ==== Sys2Proof/Config.lean ====
section
/-! DEFINITION. The vocabulary of the machine's parameters: what 00_scope.md R9 leaves to the implementation.
A `Config` is plain data. It is carried, unchanged, in the state, so that every statement about every state
holds for every choice of the parameters (log 2). The default values, and the constraints R9 puts on a
configuration, are in Machine/Parameters.lean and Decode.lean. -/

namespace Sys2Proof

/-- The condition-flag register's value: "always exactly one of {POS, ZERO, NEG}" (10_state.md R14). -/
inductive Cond where
  | neg
  | zero
  | pos
deriving DecidableEq, Repr

/-- `TRAP_UNKNOWN_POLICY`: what a TRAP with no handler does (00_scope.md R9, 44_trap.md R118). -/
inductive TrapPolicy where
  | fault
  | nop
deriving DecidableEq, Repr

/-- The sixteen opcode names of the fixed 16-opcode instruction set (30_encoding.md R56). JSR stands for
JSR and JSRR, which bit 11 tells apart (R55). -/
inductive Opcode where
  | br | add | ld | st | jsr | and | ldr | str | rti | not | ldi | sti | jmp | res | lea | trap
deriving DecidableEq, Repr

/-- `OPCODE_MAP`: the 4-bit value of each of the fourteen assigned opcodes. RTI and RES are not fields: the
source itself gives them `1000` and `1101` (00_scope.md R9, 30_encoding.md R56). -/
structure OpcodeMap where
  br : BitVec 4
  add : BitVec 4
  ld : BitVec 4
  st : BitVec 4
  jsr : BitVec 4
  and : BitVec 4
  ldr : BitVec 4
  str : BitVec 4
  not : BitVec 4
  ldi : BitVec 4
  sti : BitVec 4
  jmp : BitVec 4
  lea : BitVec 4
  trap : BitVec 4
deriving DecidableEq, Repr

/-- The parameters of 00_scope.md R9 that are degrees of freedom. -/
structure Config where
  /-- `PC_START` (70_reset_and_hazards.md R162). -/
  pcStart : Word
  /-- `OPCODE_MAP` (30_encoding.md R56). -/
  opcodeMap : OpcodeMap
  /-- `KBSR_ADDR` (10_state.md R18, 20_memory.md R38). -/
  kbsrAddr : Word
  /-- `KBDR_ADDR` (10_state.md R19, 20_memory.md R38). -/
  kbdrAddr : Word
  /-- `COND_RESET` (10_state.md R14, 90_conflicts.md C1). -/
  condReset : Cond
  /-- `TRAP_UNKNOWN_POLICY` (44_trap.md R118). -/
  trapUnknownPolicy : TrapPolicy
  /-- `IN_PROMPT` (44_trap.md R114). -/
  inPrompt : List Byte
  /-- `HALT_NOTICE` (44_trap.md R116). -/
  haltNotice : List Byte
  /-- `CAUSE_CODE` of IllegalOpcode (60_exceptions.md R142). -/
  illegalOpcodeCode : Nat
  /-- `CAUSE_CODE` of UnrecognizedTrap (60_exceptions.md R142). -/
  unrecognizedTrapCode : Nat
deriving DecidableEq, Repr

end Sys2Proof
end

