-- ==== Sys2Proof/Syntax.lean ====
section
/-! DEFINITION. The instructions as syntax: one constructor for each of the 26 rows of spec/opcode_table.json.
Fields the decoder reads are arguments (30_encoding.md R52, R53). Bits it does not read are dropped, "any value
in them gives the same instruction" (R57), except in TRAP, RTI and RES, whose fault records the whole
instruction word (60_exceptions.md R142); there the bits are kept, and nothing but that record depends on them
(log 17). -/

namespace Sys2Proof

/-- A general register, R0 to R7; every value of a 3-bit register field names one (10_state.md R10). -/
inductive Reg where
  | r0 | r1 | r2 | r3 | r4 | r5 | r6 | r7
deriving DecidableEq, Repr

/-- The six built-in service routines of the TrapTable (44_trap.md R120). -/
inductive Service where
  | getc | out | puts | inp | putsp | halt
deriving DecidableEq, Repr

/-- The instructions. -/
inductive Instr where
  /-- ADD, register form (40_operate.md R70). -/
  | addReg (dr sr1 sr2 : Reg)
  /-- ADD, immediate form (40_operate.md R70). -/
  | addImm (dr sr1 : Reg) (imm5 : BitVec 5)
  /-- AND, register form (40_operate.md R71). -/
  | andReg (dr sr1 sr2 : Reg)
  /-- AND, immediate form (40_operate.md R71). -/
  | andImm (dr sr1 : Reg) (imm5 : BitVec 5)
  /-- NOT (40_operate.md R72). -/
  | not (dr sr : Reg)
  /-- BR with its mask bits (41_control.md R80). -/
  | br (n z p : Bool) (off9 : BitVec 9)
  /-- JMP with a base other than R7 (41_control.md R81); base R7 is the row RET. -/
  | jmp (base : Reg)
  /-- RET, JMP with base R7 (30_encoding.md R61). -/
  | ret
  /-- JSR, bit 11 = 1 (41_control.md R82). -/
  | jsr (off11 : BitVec 11)
  /-- JSRR, bit 11 = 0 (41_control.md R83). -/
  | jsrr (base : Reg)
  /-- LD (42_load.md R90). -/
  | ld (dr : Reg) (off9 : BitVec 9)
  /-- LDI (42_load.md R91). -/
  | ldi (dr : Reg) (off9 : BitVec 9)
  /-- LDR (42_load.md R92). -/
  | ldr (dr base : Reg) (off6 : BitVec 6)
  /-- LEA (42_load.md R93). -/
  | lea (dr : Reg) (off9 : BitVec 9)
  /-- ST (43_store.md R100). -/
  | st (sr : Reg) (off9 : BitVec 9)
  /-- STI (43_store.md R101). -/
  | sti (sr : Reg) (off9 : BitVec 9)
  /-- STR (43_store.md R102). -/
  | str (sr base : Reg) (off6 : BitVec 6)
  /-- TRAP with a vector outside 0x20 to 0x25 (44_trap.md R110, R118); bits [11:8] are kept for the record. -/
  | trap (unread : BitVec 4) (vec8 : BitVec 8)
  /-- GETC, TRAP x20 (44_trap.md R111). -/
  | getc
  /-- OUT, TRAP x21 (44_trap.md R112). -/
  | out
  /-- PUTS, TRAP x22 (44_trap.md R113). -/
  | puts
  /-- IN, TRAP x23 (44_trap.md R114). -/
  | inp
  /-- PUTSP, TRAP x24 (44_trap.md R115). -/
  | putsp
  /-- HALT, TRAP x25 (44_trap.md R116). -/
  | halt
  /-- RTI, unassigned (45_unassigned.md R130); bits [11:0] are kept for the record. -/
  | rti (unread : BitVec 12)
  /-- RES, unassigned (45_unassigned.md R131); bits [11:0] are kept for the record. -/
  | res (unread : BitVec 12)
deriving DecidableEq, Repr

end Sys2Proof
end

