-- ==== Sys2Proof/WellFormed.lean ====
section
/-! DEFINITION. Which instruction terms stand for an encoding of their own. Every operand field holds only values
its width admits, so two checks are left: the words of JMP with base R7 are the row RET, and the words of TRAP
with a vector of the TrapTable are the rows GETC, OUT, PUTS, IN, PUTSP and HALT (30_encoding.md R61, log 18). -/

namespace Sys2Proof

/-- The instruction is written with the constructor of its own row of spec/opcode_table.json. -/
def Instr.wf : Instr → Bool
  | .addReg _ _ _ => true
  | .addImm _ _ _ => true
  | .andReg _ _ _ => true
  | .andImm _ _ _ => true
  | .not _ _ => true
  | .br _ _ _ _ => true
  | .jmp base => decide (base ≠ .r7)
  | .ret => true
  | .jsr _ => true
  | .jsrr _ => true
  | .ld _ _ => true
  | .ldi _ _ => true
  | .ldr _ _ _ => true
  | .lea _ _ => true
  | .st _ _ => true
  | .sti _ _ => true
  | .str _ _ _ => true
  | .trap _ vec8 => decide (vec8 < 0x20 ∨ 0x25 < vec8)
  | .getc => true
  | .out => true
  | .puts => true
  | .inp => true
  | .putsp => true
  | .halt => true
  | .rti _ => true
  | .res _ => true

end Sys2Proof
end

