-- ==== Sys2Proof/Decode.lean ====
section
/-! DEFINITION. The opcode map, the fields of an instruction word, the decoder and the encoder (30_encoding.md R50
to R58), with the sign and zero extension of 00_scope.md R6 and R7. The decoder is total on Words: with a map
that R9 admits it gives an instruction for every Word, and for another map it rejects a Word by name. -/

namespace Sys2Proof

/-! ### Extension of fields -/

/-- `sext_N(f)`: bits `N` to 15 take the value of bit `N-1` (00_scope.md R6). Its argument is a field already cut
to its width (92_eei_decisions.md D27, log 30). -/
def sext {n : Nat} (f : BitVec n) : Word := f.signExtend 16

/-- `zext_8(b)`: the Word with the same unsigned value (00_scope.md R7). -/
def zext (b : Byte) : Word := b.setWidth 16

/-- `w[7:0]`. -/
def lowByte (w : Word) : Byte := w.extractLsb' 0 8

/-- `w[15:8]`. -/
def highByte (w : Word) : Byte := w.extractLsb' 8 8

/-! ### The opcode map -/

/-- The 4-bit value of an opcode under a map; RTI and RES have the source's own numbers (30_encoding.md R56). -/
def OpcodeMap.code (m : OpcodeMap) : Opcode → BitVec 4
  | .br => m.br
  | .add => m.add
  | .ld => m.ld
  | .st => m.st
  | .jsr => m.jsr
  | .and => m.and
  | .ldr => m.ldr
  | .str => m.str
  | .rti => 0b1000
  | .not => m.not
  | .ldi => m.ldi
  | .sti => m.sti
  | .jmp => m.jmp
  | .res => 0b1101
  | .lea => m.lea
  | .trap => m.trap

/-- The default map, the standard LC-3 assignment (30_encoding.md R56, 92_eei_decisions.md D1, log 3). -/
def OpcodeMap.default : OpcodeMap where
  br := 0b0000
  add := 0b0001
  ld := 0b0010
  st := 0b0011
  jsr := 0b0100
  and := 0b0101
  ldr := 0b0110
  str := 0b0111
  not := 0b1001
  ldi := 0b1010
  sti := 0b1011
  jmp := 0b1100
  lea := 0b1110
  trap := 0b1111

/-- All sixteen opcode names, in the order of the table of 30_encoding.md R56. -/
def Opcode.all : List Opcode :=
  [.br, .add, .ld, .st, .jsr, .and, .ldr, .str, .rti, .not, .ldi, .sti, .jmp, .res, .lea, .trap]

/-- `OPCODE_MAP` "is a bijection between the sixteen 4-bit values and the sixteen names" (00_scope.md R9): no two
names share a value, and there are sixteen of each. -/
abbrev OpcodeMap.wf (m : OpcodeMap) : Prop := (Opcode.all.map m.code).Nodup

/-- `OPCODE_MAP(opcode)`: the name a 4-bit value has (30_encoding.md R50). -/
def OpcodeMap.opcodeAt (m : OpcodeMap) (c : BitVec 4) : Option Opcode :=
  Opcode.all.find? fun o => m.code o == c

/-! ### Registers and trap vectors as field values -/

/-- The register a 3-bit field names (10_state.md R10). -/
def Reg.ofBits (b : BitVec 3) : Reg :=
  match b.toFin with
  | 0 => .r0
  | 1 => .r1
  | 2 => .r2
  | 3 => .r3
  | 4 => .r4
  | 5 => .r5
  | 6 => .r6
  | 7 => .r7

/-- The 3-bit field that names a register. -/
def Reg.toBits : Reg → BitVec 3
  | .r0 => 0
  | .r1 => 1
  | .r2 => 2
  | .r3 => 3
  | .r4 => 4
  | .r5 => 5
  | .r6 => 6
  | .r7 => 7

/-- The vector of a service routine (44_trap.md R110, R120). -/
def Service.vector : Service → BitVec 8
  | .getc => 0x20
  | .out => 0x21
  | .puts => 0x22
  | .inp => 0x23
  | .putsp => 0x24
  | .halt => 0x25

/-- The TrapTable: the routine a vector selects, if it has one (44_trap.md R110, R120). -/
def serviceAt (vec8 : BitVec 8) : Option Service :=
  [Service.getc, .out, .puts, .inp, .putsp, .halt].find? fun v => v.vector == vec8

/-! ### Fields of an instruction word (30_encoding.md R52) -/

/-- `opcode`, bits [15:12]. -/
def fieldOpcode (w : Word) : BitVec 4 := w.extractLsb' 12 4
/-- `DR` or the store source `SR`, bits [11:9]. -/
def fieldReg11 (w : Word) : Reg := .ofBits (w.extractLsb' 9 3)
/-- `SR1`, NOT's `SR`, or `base`, bits [8:6]. -/
def fieldReg8 (w : Word) : Reg := .ofBits (w.extractLsb' 6 3)
/-- `SR2`, bits [2:0]. -/
def fieldReg2 (w : Word) : Reg := .ofBits (w.extractLsb' 0 3)
/-- `imm5`, bits [4:0]. -/
def fieldImm5 (w : Word) : BitVec 5 := w.extractLsb' 0 5
/-- `off6`, bits [5:0]. -/
def fieldOff6 (w : Word) : BitVec 6 := w.extractLsb' 0 6
/-- `off9`, bits [8:0]. -/
def fieldOff9 (w : Word) : BitVec 9 := w.extractLsb' 0 9
/-- `off11`, bits [10:0]. -/
def fieldOff11 (w : Word) : BitVec 11 := w.extractLsb' 0 11
/-- `vec8`, bits [7:0]. -/
def fieldVec8 (w : Word) : BitVec 8 := w.extractLsb' 0 8
/-- The bits [11:8] of a TRAP word, not read. -/
def fieldTrapUnread (w : Word) : BitVec 4 := w.extractLsb' 8 4
/-- The bits [11:0] of an RTI or RES word, not read. -/
def fieldUnread12 (w : Word) : BitVec 12 := w.extractLsb' 0 12

/-! ### The decoder -/

/-- Why a Word has no instruction. -/
inductive DecodeError where
  /-- The map gives no name to bits [15:12]; impossible for a map that 00_scope.md R9 admits. -/
  | opcodeNotInMap
deriving DecidableEq, Repr

/-- The instruction of a routine's TRAP word (30_encoding.md R61). -/
def Service.instr : Service → Instr
  | .getc => .getc
  | .out => .out
  | .puts => .puts
  | .inp => .inp
  | .putsp => .putsp
  | .halt => .halt

/-- The instruction of a Word whose opcode has the given name: the formats of 30_encoding.md R53 with the form
bits of R55. -/
def decodeAs (op : Opcode) (w : Word) : Instr :=
  match op with
  | .br => .br (w.getLsbD 11) (w.getLsbD 10) (w.getLsbD 9) (fieldOff9 w)
  | .add =>
    if w.getLsbD 5 then .addImm (fieldReg11 w) (fieldReg8 w) (fieldImm5 w)
    else .addReg (fieldReg11 w) (fieldReg8 w) (fieldReg2 w)
  | .ld => .ld (fieldReg11 w) (fieldOff9 w)
  | .st => .st (fieldReg11 w) (fieldOff9 w)
  | .jsr => if w.getLsbD 11 then .jsr (fieldOff11 w) else .jsrr (fieldReg8 w)
  | .and =>
    if w.getLsbD 5 then .andImm (fieldReg11 w) (fieldReg8 w) (fieldImm5 w)
    else .andReg (fieldReg11 w) (fieldReg8 w) (fieldReg2 w)
  | .ldr => .ldr (fieldReg11 w) (fieldReg8 w) (fieldOff6 w)
  | .str => .str (fieldReg11 w) (fieldReg8 w) (fieldOff6 w)
  | .rti => .rti (fieldUnread12 w)
  | .not => .not (fieldReg11 w) (fieldReg8 w)
  | .ldi => .ldi (fieldReg11 w) (fieldOff9 w)
  | .sti => .sti (fieldReg11 w) (fieldOff9 w)
  | .jmp => if fieldReg8 w = .r7 then .ret else .jmp (fieldReg8 w)
  | .res => .res (fieldUnread12 w)
  | .lea => .lea (fieldReg11 w) (fieldOff9 w)
  | .trap =>
    match serviceAt (fieldVec8 w) with
    | some v => v.instr
    | none => .trap (fieldTrapUnread w) (fieldVec8 w)

/-- Steps 2 and 3 of the instruction cycle: the opcode is bits [15:12], looked up in the map (30_encoding.md R50). -/
def decode (m : OpcodeMap) (w : Word) : Except DecodeError Instr :=
  match m.opcodeAt (fieldOpcode w) with
  | some op => .ok (decodeAs op w)
  | none => .error .opcodeNotInMap

/-- The instruction that a Word of the opcode table stands for, under the default map. An instruction is exactly one
16-bit Word (30_encoding.md R51), so a longer one is refused. -/
def decodeTableWord (nbits w : Nat) : Option Instr :=
  if nbits ≤ 16 ∧ w < 2 ^ nbits then
    match decode .default (BitVec.ofNat 16 w) with
    | .ok i => some i
    | .error _ => none
  else none

/-! ### The encoder -/

/-- The opcode name of an instruction. -/
def Instr.opcode : Instr → Opcode
  | .addReg _ _ _ => .add
  | .addImm _ _ _ => .add
  | .andReg _ _ _ => .and
  | .andImm _ _ _ => .and
  | .not _ _ => .not
  | .br _ _ _ _ => .br
  | .jmp _ => .jmp
  | .ret => .jmp
  | .jsr _ => .jsr
  | .jsrr _ => .jsr
  | .ld _ _ => .ld
  | .ldi _ _ => .ldi
  | .ldr _ _ _ => .ldr
  | .lea _ _ => .lea
  | .st _ _ => .st
  | .sti _ _ => .sti
  | .str _ _ _ => .str
  | .trap _ _ => .trap
  | .getc => .trap
  | .out => .trap
  | .puts => .trap
  | .inp => .trap
  | .putsp => .trap
  | .halt => .trap
  | .rti _ => .rti
  | .res _ => .res

/-- Bits [11:0] of an instruction's canonical Word, by the formats of 30_encoding.md R53. Bits not read are 0, but
`111111` in NOT (R57). -/
def Instr.low12 : Instr → BitVec 12
  | .addReg dr sr1 sr2 => dr.toBits ++ (sr1.toBits ++ (0b000#3 ++ sr2.toBits))
  | .addImm dr sr1 imm5 => dr.toBits ++ (sr1.toBits ++ (1#1 ++ imm5))
  | .andReg dr sr1 sr2 => dr.toBits ++ (sr1.toBits ++ (0b000#3 ++ sr2.toBits))
  | .andImm dr sr1 imm5 => dr.toBits ++ (sr1.toBits ++ (1#1 ++ imm5))
  | .not dr sr => dr.toBits ++ (sr.toBits ++ 0b111111#6)
  | .br n z p off9 => (BitVec.ofBool n ++ (BitVec.ofBool z ++ BitVec.ofBool p)) ++ off9
  | .jmp base => 0b000#3 ++ (base.toBits ++ 0b000000#6)
  | .ret => 0b000#3 ++ (Reg.r7.toBits ++ 0b000000#6)
  | .jsr off11 => 1#1 ++ off11
  | .jsrr base => 0b000#3 ++ (base.toBits ++ 0b000000#6)
  | .ld dr off9 => dr.toBits ++ off9
  | .ldi dr off9 => dr.toBits ++ off9
  | .ldr dr base off6 => dr.toBits ++ (base.toBits ++ off6)
  | .lea dr off9 => dr.toBits ++ off9
  | .st sr off9 => sr.toBits ++ off9
  | .sti sr off9 => sr.toBits ++ off9
  | .str sr base off6 => sr.toBits ++ (base.toBits ++ off6)
  | .trap unread vec8 => unread ++ vec8
  | .getc => 0b0000#4 ++ Service.getc.vector
  | .out => 0b0000#4 ++ Service.out.vector
  | .puts => 0b0000#4 ++ Service.puts.vector
  | .inp => 0b0000#4 ++ Service.inp.vector
  | .putsp => 0b0000#4 ++ Service.putsp.vector
  | .halt => 0b0000#4 ++ Service.halt.vector
  | .rti unread => unread
  | .res unread => unread

/-- The canonical Word of an instruction (30_encoding.md R53, R56, R57). -/
def encode (m : OpcodeMap) (i : Instr) : Word := m.code i.opcode ++ i.low12

/-- The bits of its Word that decide an instruction: the opcode and the fields of its format (30_encoding.md R53,
R57). For TRAP, RTI and RES also the bits that only the fault record keeps. -/
def Instr.readMask : Instr → Word
  | .addReg _ _ _ => 0xFFE7
  | .addImm _ _ _ => 0xFFFF
  | .andReg _ _ _ => 0xFFE7
  | .andImm _ _ _ => 0xFFFF
  | .not _ _ => 0xFFC0
  | .br _ _ _ _ => 0xFFFF
  | .jmp _ => 0xF1C0
  | .ret => 0xF1C0
  | .jsr _ => 0xFFFF
  | .jsrr _ => 0xF9C0
  | .ld _ _ => 0xFFFF
  | .ldi _ _ => 0xFFFF
  | .ldr _ _ _ => 0xFFFF
  | .lea _ _ => 0xFFFF
  | .st _ _ => 0xFFFF
  | .sti _ _ => 0xFFFF
  | .str _ _ _ => 0xFFFF
  | .trap _ _ => 0xFFFF
  | .getc => 0xF0FF
  | .out => 0xF0FF
  | .puts => 0xF0FF
  | .inp => 0xF0FF
  | .putsp => 0xF0FF
  | .halt => 0xF0FF
  | .rti _ => 0xFFFF
  | .res _ => 0xFFFF

end Sys2Proof
end

