-- ==== Sys2Proof/Machine/Parameters.lean ====
section
/-! DEFINITION. The default values of the parameters of 00_scope.md R9, and the constraints on a configuration. -/

namespace Sys2Proof

/-- The default parameters (00_scope.md R9). Every value but the start address "conventionally 0x3000" is the
spec's own default and not the source's: log 3 to log 9. -/
def Config.default : Config where
  pcStart := 0x3000
  opcodeMap := .default
  kbsrAddr := 0xFE00
  kbdrAddr := 0xFE02
  condReset := .zero
  trapUnknownPolicy := .fault
  -- the 19 ASCII bytes "Enter a character: "
  inPrompt := [0x45, 0x6E, 0x74, 0x65, 0x72, 0x20, 0x61, 0x20, 0x63, 0x68, 0x61, 0x72, 0x61, 0x63, 0x74, 0x65,
    0x72, 0x3A, 0x20]
  -- "HALT" and a line feed
  haltNotice := [0x48, 0x41, 0x4C, 0x54, 0x0A]
  illegalOpcodeCode := 1
  unrecognizedTrapCode := 2

/-- The constraints on the parameters: "`KBSR_ADDR != KBDR_ADDR`" and the opcode map is a bijection (00_scope.md R9).
That a cause code is not 0 is DEDUCED from "0 on a normal HALT, nonzero otherwise" (60_exceptions.md R151, log 9). -/
abbrev Config.wf (c : Config) : Prop :=
  c.kbsrAddr ≠ c.kbdrAddr ∧ c.opcodeMap.wf ∧ c.illegalOpcodeCode ≠ 0 ∧ c.unrecognizedTrapCode ≠ 0

end Sys2Proof
end

