-- ==== Sys2Proof/Machine/State.lean ====
section
/-! DEFINITION. The state of the machine, as plain data: all the state 10_state.md gives it (R10 to R25), the
environment's two byte streams, and two fields of the model's own, `arrivals` and `cfg` (log 2, log 12). -/

namespace Sys2Proof.Machine

/-- The eight general registers (10_state.md R10). -/
structure Regs where
  r0 : Word
  r1 : Word
  r2 : Word
  r3 : Word
  r4 : Word
  r5 : Word
  r6 : Word
  r7 : Word
deriving DecidableEq, Repr

/-- The two synchronous faults (60_exceptions.md R140, R142). -/
inductive FaultCause where
  | illegalOpcode
  | unrecognizedTrap
deriving DecidableEq, Repr

/-- The run state `rs` (10_state.md R20). `info` is the instruction Word (60_exceptions.md R142). -/
inductive RunState where
  | running
  | halted
  | faulted (cause : FaultCause) (info : Word)
deriving DecidableEq, Repr

/-- The trap FSM phase `ts` (10_state.md R22); `p` is the address of the next string word. -/
inductive TrapPhase where
  | idle
  | getcWait
  | inWait
  | putsRun (p : Word)
  | putspRun (p : Word)
deriving DecidableEq, Repr

/-- The state. -/
structure State where
  /-- `x[0]` to `x[7]` (10_state.md R10, R11). -/
  regs : Regs
  /-- The program counter (R12, R13). -/
  pc : Word
  /-- The condition flags (R14, R15). -/
  cond : Cond
  /-- `MEM`; the cells KBSR and KBDR are words of it (R17, R18, R19). -/
  mem : Memory
  /-- The run state (R20). -/
  rs : RunState
  /-- The trap FSM phase (R22). -/
  ts : TrapPhase
  /-- The pending bytes of the input source, oldest first (R24). -/
  input : List Byte
  /-- The bytes emitted to the output sink, oldest first (R25). -/
  output : List Byte
  /-- The model's own: the batch of bytes the host appends to the input source before each of the coming steps, the
  next step's first (R24, 60_exceptions.md R152, log 12). -/
  arrivals : List (List Byte)
  /-- The model's own: the parameters of 00_scope.md R9, which no step changes (log 2). -/
  cfg : Config
deriving DecidableEq, Repr

/-- Why the machine stops. No instruction answers one of these: a fault of the hardware is a next state, with `rs`
FAULTED (60_exceptions.md R141), and `step` answers these from a state that has no step (log 14). -/
inductive Fault where
  /-- Raised by `step` when `rs` is HALTED: "HALTED is terminal" (10_state.md R20). Safe: the machine has no step. -/
  | halted
  /-- Raised by `step` when `rs` is FAULTED, with its cause and the recorded instruction Word: "the machine has no
  later step" (60_exceptions.md R141). Safe: the machine has no step. -/
  | stopped (cause : FaultCause) (info : Word)
deriving DecidableEq, Repr

/-- Why an instruction has no meaning here. -/
inductive Refusal where
  /-- Raised by an arm of `exec` whose instruction is not modelled yet; no arm is left. Safe: the model stops. -/
  | notModelled (mnemonic : String)
  /-- Raised by `step` when the opcode map gives the fetched Word's opcode no name, which 00_scope.md R9 rules out.
  Safe: the model stops (log 26). -/
  | opcodeNotInMap (word : Word)
deriving DecidableEq, Repr

/-- What a meaning answers. -/
abbrev Result := Host.Outcome State Fault Refusal

/-- The machine right after reset with the default parameters, no image loaded and no input supplied (10_state.md R26,
70_reset_and_hazards.md R160, R161; log 11). `State.powerOn` is reset for every configuration, image and input. -/
def State.reset : State where
  regs := ⟨0, 0, 0, 0, 0, 0, 0, 0⟩
  pc := Config.default.pcStart
  cond := Config.default.condReset
  mem := []
  rs := .running
  ts := .idle
  input := []
  output := []
  arrivals := []
  cfg := .default

end Sys2Proof.Machine
end

