-- ==== Sys2Proof/Machine/Ops.lean ====
section
/-! DEFINITION. The named operations the meanings are written in: the primitives of 00_scope.md section 5, the two
bus operations and the keyboard poll (20_memory.md R30 to R33), the fetch (30_encoding.md R50), raising a fault
(60_exceptions.md R141), entering a trap routine (R145) and returning from one (R146). -/

namespace Sys2Proof.Machine

/-! ### Registers -/

/-- The register a name selects. -/
def Regs.get (g : Regs) : Reg → Word
  | .r0 => g.r0
  | .r1 => g.r1
  | .r2 => g.r2
  | .r3 => g.r3
  | .r4 => g.r4
  | .r5 => g.r5
  | .r6 => g.r6
  | .r7 => g.r7

/-- The registers with one replaced. -/
def Regs.set (g : Regs) (r : Reg) (v : Word) : Regs :=
  match r with
  | .r0 => { g with r0 := v }
  | .r1 => { g with r1 := v }
  | .r2 => { g with r2 := v }
  | .r3 => { g with r3 := v }
  | .r4 => { g with r4 := v }
  | .r5 => { g with r5 := v }
  | .r6 => { g with r6 := v }
  | .r7 => { g with r7 := v }

/-- `x[r]` (10_state.md R10). -/
def State.reg (s : State) (r : Reg) : Word := s.regs.get r

/-- `x[r] <- v` (10_state.md R10); no register is hardwired. -/
def State.setReg (s : State) (r : Reg) (v : Word) : State := { s with regs := s.regs.set r v }

/-- `pc <- target` (10_state.md R12). -/
def State.setPc (s : State) (target : Word) : State := { s with pc := target }

/-- `cond <- c` (10_state.md R14). -/
def State.setCond (s : State) (c : Cond) : State := { s with cond := c }

/-- `rs <- r` (10_state.md R20). -/
def State.setRs (s : State) (r : RunState) : State := { s with rs := r }

/-- `ts <- t` (10_state.md R22). -/
def State.setTs (s : State) (t : TrapPhase) : State := { s with ts := t }

/-! ### Memory with no side effect -/

/-- `MEM[a]`, "the stored Word at address `a`, with no side effect" (00_scope.md section 5). -/
def State.peek (s : State) (a : Word) : Word := s.mem.read a

/-- `MEM[a] <- v`. -/
def State.poke (s : State) (a v : Word) : State := { s with mem := s.mem.write a v }

/-! ### The environment's byte streams -/

/-- What is left of the input source once `in_take()` has removed its oldest byte (10_state.md R24). -/
def State.setInput (s : State) (rest : List Byte) : State := { s with input := rest }

/-- `emit(b)` for each byte in order (10_state.md R25). -/
def State.emit (s : State) (bytes : List Byte) : State := { s with output := s.output ++ bytes }

/-- The host's bytes for this moment land in the input source: it "may append a byte to it at any time, including
between any two steps" (10_state.md R24, log 12). -/
def State.land (s : State) : State :=
  match s.arrivals with
  | [] => s
  | batch :: later => { s with input := s.input ++ batch, arrivals := later }

/-! ### The bus -/

/-- `KeyboardPoll()` (20_memory.md R31). -/
def keyboardPoll (s : State) : State :=
  match s.input with
  | b :: rest => ((s.setInput rest).poke s.cfg.kbsrAddr 0x8000).poke s.cfg.kbdrAddr (zext b)
  | [] => s.poke s.cfg.kbsrAddr 0x0000

/-- The state a bus read of `a` leaves: the poll has run if `a` is the keyboard-status address (20_memory.md R30). -/
def pollIfStatus (a : Word) (s : State) : State :=
  if a = s.cfg.kbsrAddr then keyboardPoll s else s

/-- `MemRead(a, 16)`: the Word read and the state after the read (20_memory.md R30). -/
def memRead (a : Word) (s : State) : Word × State := ((pollIfStatus a s).peek a, pollIfStatus a s)

/-- `MemWrite(a, 16, v)`: a plain store at every address (20_memory.md R33). -/
def memWrite (a v : Word) (s : State) : State := s.poke a v

/-- Step 1 of the instruction cycle: the Word fetched, and the state with `pc` incremented (30_encoding.md R50). -/
def fetch (s : State) : Word × State :=
  ((memRead s.pc s).1, (memRead s.pc s).2.setPc (s.pc + 1))

/-! ### Faults and traps -/

/-- `raise cause(info)`: "It changes nothing else" (60_exceptions.md R141). -/
def raise (cause : FaultCause) (info : Word) (s : State) : State := s.setRs (.faulted cause info)

/-- `x[7] <- pc`: the link that JSR, JSRR and TRAP write (10_state.md R11). -/
def linkReturn (s : State) : State := s.setReg .r7 s.pc

/-- Entry to a trap service routine: the post-increment `pc` goes to `x[7]` and nothing else is saved or changed
(60_exceptions.md R145). -/
def trapEntry (s : State) : State := linkReturn s

/-- Return from a trap service routine: `ts` is IDLE again and nothing is restored (60_exceptions.md R146). -/
def trapReturn (s : State) : State := s.setTs .idle

end Sys2Proof.Machine
end

