-- ==== Sys2Proof/Machine/Flags.lean ====
section
/-! DEFINITION. The condition flags: `setcc` (10_state.md R15), the BR test (41_control.md R80), and the one way an
instruction writes a result (10_state.md R16). -/

namespace Sys2Proof.Machine

/-- The value `setcc(v)` gives `cond` (10_state.md R15). -/
def condOf (v : Word) : Cond :=
  if v.getLsbD 15 then .neg else if v = 0 then .zero else .pos

/-- `setcc(v)`. -/
def setcc (v : Word) (s : State) : State := s.setCond (condOf v)

/-- `x[dr] <- r; setcc(r)`: how ADD, AND, NOT, LD, LDI, LDR and LEA end (10_state.md R16). -/
def writeResult (dr : Reg) (r : Word) (s : State) : State := setcc r (s.setReg dr r)

/-- `cond` as the one-hot mask of the BR test: NEG `100`, ZERO `010`, POS `001` (10_state.md R14, log 28). -/
def condMask : Cond → BitVec 3
  | .neg => 0b100
  | .zero => 0b010
  | .pos => 0b001

/-- `(instr[11:9] & cond) != 0` (41_control.md R80). -/
def branchTaken (n z p : Bool) (c : Cond) : Bool :=
  (BitVec.ofBool n ++ (BitVec.ofBool z ++ BitVec.ofBool p)) &&& condMask c != 0#3

end Sys2Proof.Machine
end

