-- ==== Sys2Proof/Machine/Operands.lean ====
section
/-! DEFINITION. The operand forms and addressing modes: register, immediate, PC-relative, base plus offset, and
indirect (30_encoding.md R54, 42_load.md R94). In an instruction's body `pc` is the post-increment value
(10_state.md R12), and every sum wraps (20_memory.md R34). -/

namespace Sys2Proof.Machine

/-- The second operand of the register form of ADD and AND, `x[SR2]` (40_operate.md R70). -/
def registerOperand (sr2 : Reg) (s : State) : Word := s.reg sr2

/-- The second operand of the immediate form of ADD and AND, `sext_5(imm5)` (40_operate.md R70). -/
def immediateOperand (imm5 : BitVec 5) : Word := sext imm5

/-- `pc + sext_N(off)`: off9 of BR, LD, LDI, LEA, ST, STI and off11 of JSR (30_encoding.md R54). -/
def pcRelative {n : Nat} (off : BitVec n) (s : State) : Word := s.pc + sext off

/-- `x[base] + sext_6(off6)` (42_load.md R94). -/
def baseOffset (base : Reg) (off6 : BitVec 6) (s : State) : Word := s.reg base + sext off6

/-- The pointer that LDI and STI read at `pc + sext_9(off9)`, and the state after that read (42_load.md R94). -/
def pointerRead (off9 : BitVec 9) (s : State) : Word × State := memRead (pcRelative off9 s) s

end Sys2Proof.Machine
end

