-- ==== Sys2Proof/Machine/Control.lean ====
section
/-! DEFINITION. The meanings of BR, JMP, RET, JSR and JSRR (41_control.md R80 to R83). -/

namespace Sys2Proof.Machine

/-- BR (R80). -/
def execBr (n z p : Bool) (off9 : BitVec 9) (s : State) : Result :=
  .next (if branchTaken n z p s.cond then s.setPc (pcRelative off9 s) else s)

/-- JMP (R81). -/
def execJmp (base : Reg) (s : State) : Result := .next (s.setPc (s.reg base))

/-- RET, JMP with base R7, "no special case needed" (R81). -/
def execRet (s : State) : Result := .next (s.setPc (s.reg .r7))

/-- JSR: the link, then the jump (R82). -/
def execJsr (off11 : BitVec 11) (s : State) : Result :=
  .next ((linkReturn s).setPc (pcRelative off11 (linkReturn s)))

/-- JSRR: the link is written before the base register is read (R83, log 16). -/
def execJsrr (base : Reg) (s : State) : Result :=
  .next ((linkReturn s).setPc ((linkReturn s).reg base))

end Sys2Proof.Machine
end

