-- ==== Sys2Proof/Machine/Load.lean ====
section
/-! DEFINITION. The meanings of LD, LDI, LDR and LEA (42_load.md R90 to R93). -/

namespace Sys2Proof.Machine

/-- `v <- MemRead(ea, 16); x[dr] <- v; setcc(v)`: how every load ends (42_load.md R94). -/
def loadFrom (dr : Reg) (ea : Word) (s : State) : State :=
  writeResult dr (memRead ea s).1 (memRead ea s).2

/-- LD (R90). -/
def execLd (dr : Reg) (off9 : BitVec 9) (s : State) : Result :=
  .next (loadFrom dr (pcRelative off9 s) s)

/-- LDI: the pointer is read first, then the data (R91). -/
def execLdi (dr : Reg) (off9 : BitVec 9) (s : State) : Result :=
  .next (loadFrom dr (pointerRead off9 s).1 (pointerRead off9 s).2)

/-- LDR (R92). -/
def execLdr (dr base : Reg) (off6 : BitVec 6) (s : State) : Result :=
  .next (loadFrom dr (baseOffset base off6 s) s)

/-- LEA: no memory access, and the flags are set from the address (R93). -/
def execLea (dr : Reg) (off9 : BitVec 9) (s : State) : Result :=
  .next (writeResult dr (pcRelative off9 s) s)

end Sys2Proof.Machine
end

