-- ==== Sys2Proof/Machine/Operate.lean ====
section
/-! DEFINITION. The meanings of ADD, AND and NOT (40_operate.md R70 to R72). Sources are read before the
destination is written. -/

namespace Sys2Proof.Machine

/-- ADD, register form (R70). -/
def execAddReg (dr sr1 sr2 : Reg) (s : State) : Result :=
  .next (writeResult dr (s.reg sr1 + registerOperand sr2 s) s)

/-- ADD, immediate form (R70). -/
def execAddImm (dr sr1 : Reg) (imm5 : BitVec 5) (s : State) : Result :=
  .next (writeResult dr (s.reg sr1 + immediateOperand imm5) s)

/-- AND, register form (R71). -/
def execAndReg (dr sr1 sr2 : Reg) (s : State) : Result :=
  .next (writeResult dr (s.reg sr1 &&& registerOperand sr2 s) s)

/-- AND, immediate form (R71). -/
def execAndImm (dr sr1 : Reg) (imm5 : BitVec 5) (s : State) : Result :=
  .next (writeResult dr (s.reg sr1 &&& immediateOperand imm5) s)

/-- NOT (R72). -/
def execNot (dr sr : Reg) (s : State) : Result :=
  .next (writeResult dr (~~~(s.reg sr)) s)

end Sys2Proof.Machine
end

