-- ==== Sys2Proof/Machine/Store.lean ====
section
/-! DEFINITION. The meanings of ST, STI and STR (43_store.md R100 to R102). None sets the flags. -/

namespace Sys2Proof.Machine

/-- ST (R100). -/
def execSt (sr : Reg) (off9 : BitVec 9) (s : State) : Result :=
  .next (memWrite (pcRelative off9 s) (s.reg sr) s)

/-- STI: one read of the pointer, then one write (R101). -/
def execSti (sr : Reg) (off9 : BitVec 9) (s : State) : Result :=
  .next (memWrite (pointerRead off9 s).1 (s.reg sr) (pointerRead off9 s).2)

/-- STR (R102). -/
def execStr (sr base : Reg) (off6 : BitVec 6) (s : State) : Result :=
  .next (memWrite (baseOffset base off6 s) (s.reg sr) s)

end Sys2Proof.Machine
end

