-- ==== Sys2Proof/Machine/Trap.lean ====
section
/-! DEFINITION. TRAP, the six service routines and the trap FSM (44_trap.md R110 to R118). A routine's start runs
inside the TRAP instruction's own step, after `x[7] <- pc`; what is left of GETC, IN, PUTS and PUTSP is run by
`trapFsmStep`, one step of the machine at a time (R117, log 19). No flag is ever written here (R110). -/

namespace Sys2Proof.Machine

/-! ### What each vector starts -/

/-- GETC waits for a byte (R111). -/
def startGetc (s : State) : State := s.setTs .getcWait

/-- OUT emits the low 8 bits of `x[0]` and is complete (R112). -/
def startOut (s : State) : State := s.emit [lowByte (s.reg .r0)]

/-- PUTS takes `x[0]` as the address of the first string word (R113). -/
def startPuts (s : State) : State := s.setTs (.putsRun (s.reg .r0))

/-- IN emits the prompt and waits for a byte (R114). -/
def startIn (s : State) : State := (s.emit s.cfg.inPrompt).setTs .inWait

/-- PUTSP takes `x[0]` as the address of the first string word (R115). -/
def startPutsp (s : State) : State := s.setTs (.putspRun (s.reg .r0))

/-- HALT emits the notice and ends the run (R116). -/
def startHalt (s : State) : State := (s.emit s.cfg.haltNotice).setRs .halted

/-- A vector with no handler: the policy decides (R118, log 7). `word` is the instruction Word the fault records. -/
def unknownVector (word : Word) (s : State) : State :=
  match s.cfg.trapUnknownPolicy with
  | .fault => raise .unrecognizedTrap word s
  | .nop => s

/-- The dispatch of TRAP on its vector (R110). -/
def trapDispatch (word : Word) (vec8 : BitVec 8) (s : State) : State :=
  match serviceAt vec8 with
  | some .getc => startGetc s
  | some .out => startOut s
  | some .puts => startPuts s
  | some .inp => startIn s
  | some .putsp => startPutsp s
  | some .halt => startHalt s
  | none => unknownVector word s

/-! ### The instructions -/

/-- TRAP (R110): the link for every vector, then the dispatch. A term whose vector is of the TrapTable is not well
formed, and runs the routine all the same (log 18). -/
def execTrap (unread : BitVec 4) (vec8 : BitVec 8) (s : State) : Result :=
  .next (trapDispatch (encode s.cfg.opcodeMap (.trap unread vec8)) vec8 (trapEntry s))

/-- GETC (R110, R111). -/
def execGetc (s : State) : Result := .next (startGetc (trapEntry s))

/-- OUT (R110, R112). -/
def execOut (s : State) : Result := .next (startOut (trapEntry s))

/-- PUTS (R110, R113). -/
def execPuts (s : State) : Result := .next (startPuts (trapEntry s))

/-- IN (R110, R114). -/
def execIn (s : State) : Result := .next (startIn (trapEntry s))

/-- PUTSP (R110, R115). -/
def execPutsp (s : State) : Result := .next (startPutsp (trapEntry s))

/-- HALT (R110, R116). -/
def execHalt (s : State) : Result := .next (startHalt (trapEntry s))

/-! ### The trap FSM (R117) -/

/-- The step of GETC_WAIT. With no byte pending the machine holds: the state stays as it is (log 13). -/
def getcWaitStep (s : State) : State :=
  match s.input with
  | b :: rest => trapReturn ((s.setInput rest).setReg .r0 (zext b))
  | [] => s

/-- The step of IN_WAIT: as GETC_WAIT, with the routine's own echo (log 13). -/
def inWaitStep (s : State) : State :=
  match s.input with
  | b :: rest => trapReturn (((s.setInput rest).emit [b]).setReg .r0 (zext b))
  | [] => s

/-- The bytes PUTSP emits for a string word that is not zero: "the low byte, then the high byte only if nonzero" (R115). -/
def packedBytes (w : Word) : List Byte :=
  if highByte w = 0 then [lowByte w] else [lowByte w, highByte w]

/-- The step of PUTS_RUN(p). -/
def putsStep (p : Word) (s : State) : State :=
  if (memRead p s).1 = 0 then trapReturn (memRead p s).2
  else ((memRead p s).2.emit [lowByte (memRead p s).1]).setTs (.putsRun (p + 1))

/-- The step of PUTSP_RUN(p). -/
def putspStep (p : Word) (s : State) : State :=
  if (memRead p s).1 = 0 then trapReturn (memRead p s).2
  else ((memRead p s).2.emit (packedBytes (memRead p s).1)).setTs (.putspRun (p + 1))

/-- One step of the trap FSM; in IDLE there is none. -/
def trapFsmStep (s : State) : State :=
  match s.ts with
  | .idle => s
  | .getcWait => getcWaitStep s
  | .inWait => inWaitStep s
  | .putsRun p => putsStep p s
  | .putspRun p => putspStep p s

end Sys2Proof.Machine
end

