-- ==== Sys2Proof/Machine/Unassigned.lean ====
section
/-! DEFINITION. The meanings of the unassigned opcodes RTI and RES: each raises IllegalOpcode with the instruction
Word (45_unassigned.md R130 to R132). The fetch and the `pc` increment are already done. -/

namespace Sys2Proof.Machine

/-- RTI (R130). -/
def execRti (unread : BitVec 12) (s : State) : Result :=
  .next (raise .illegalOpcode (encode s.cfg.opcodeMap (.rti unread)) s)

/-- RES (R131). -/
def execRes (unread : BitVec 12) (s : State) : Result :=
  .next (raise .illegalOpcode (encode s.cfg.opcodeMap (.res unread)) s)

end Sys2Proof.Machine
end

