-- ==== Sys2Proof/Machine/Step.lean ====
section
/-! DEFINITION. One step of the machine (00_scope.md R8): while RUNNING, a whole instruction cycle if the trap FSM is
IDLE, else one step of the trap FSM. The host's bytes for this moment land first (log 12). -/

namespace Sys2Proof.Machine

/-- The instruction cycle (30_encoding.md R50). -/
def cycle (s : State) : Host.Outcome State Fault Refusal :=
  match decode s.cfg.opcodeMap (fetch s).1 with
  | .ok i => exec i (fetch s).2
  | .error .opcodeNotInMap => .refused (.opcodeNotInMap (fetch s).1)

/-- One step. HALTED and FAULTED have none (10_state.md R20, log 14). -/
def step (s : State) : Host.Outcome State Fault Refusal :=
  match s.rs with
  | .halted => .fault .halted
  | .faulted cause info => .fault (.stopped cause info)
  | .running =>
    match s.ts with
    | .idle => cycle s.land
    | .getcWait => .next (trapFsmStep s.land)
    | .inWait => .next (trapFsmStep s.land)
    | .putsRun _ => .next (trapFsmStep s.land)
    | .putspRun _ => .next (trapFsmStep s.land)

/-- The state with an instruction stored at `pc`, ready to run an instruction cycle (log 27). An instruction is one
Word, so `nbits` is at most 16. -/
def State.withFetchWord (s : State) (nbits w : Nat) : State :=
  ((s.poke s.pc (BitVec.ofNat 16 (w % 2 ^ nbits))).setRs .running).setTs .idle

end Sys2Proof.Machine
end

