-- ==== Sys2Proof/Machine/HostMoves.lean ====
section
/-! DEFINITION. What the host does to the machine (60_exceptions.md R152): it loads images and starts the machine
(70_reset_and_hazards.md R160 to R166), supplies input bytes between steps (10_state.md R24), and reads the exit
status (60_exceptions.md R151). The host never changes anything else while the machine runs. -/

namespace Sys2Proof.Machine

/-- The Words of an image file: big-endian, two bytes a Word; a trailing odd byte is ignored
(70_reset_and_hazards.md R163, R166, log 23). -/
def imageWords : List Byte → List Word
  | hi :: lo :: rest => (hi ++ lo) :: imageWords rest
  | _ => []

/-- Writes data words at rising addresses, and drops what would go past address 65535 (R164, R165). -/
def loadWords (m : Memory) (a : Nat) : List Word → Memory
  | [] => m
  | d :: ds => if a < 65536 then loadWords (m.write (BitVec.ofNat 16 a) d) (a + 1) ds else m

/-- Loads one image: file word 0 is the origin (R163, R164). A file with no origin loads nothing (R166). -/
def loadImage (m : Memory) (file : List Byte) : Memory :=
  match imageWords file with
  | origin :: ds => loadWords m origin.toNat ds
  | [] => m

/-- Loads images "in the order given" (R166). -/
def loadImages (m : Memory) (files : List (List Byte)) : Memory := files.foldl loadImage m

/-- The state when the cycle begins, for every configuration, list of images, input supplied so far and input still to
come (10_state.md R26, 70_reset_and_hazards.md R160, R161). -/
def State.powerOn (c : Config) (images : List (List Byte)) (input : List Byte) (arrivals : List (List Byte)) :
    State where
  regs := ⟨0, 0, 0, 0, 0, 0, 0, 0⟩
  pc := c.pcStart
  cond := c.condReset
  mem := loadImages [] images
  rs := .running
  ts := .idle
  input := input
  output := []
  arrivals := arrivals
  cfg := c

/-- The host appends bytes to the input source between two steps (10_state.md R24). -/
def State.supply (s : State) (bytes : List Byte) : State := s.setInput (s.input ++ bytes)

/-- `CAUSE_CODE` (60_exceptions.md R142). -/
def causeCode (c : Config) : FaultCause → Nat
  | .illegalOpcode => c.illegalOpcodeCode
  | .unrecognizedTrap => c.unrecognizedTrapCode

/-- The exit status the host reports: none before the run has ended, 0 for HALTED, the cause's code for FAULTED
(60_exceptions.md R150, R151). -/
def exitStatus (s : State) : Option Nat :=
  match s.rs with
  | .running => none
  | .halted => some 0
  | .faulted cause _ => some (causeCode s.cfg cause)

end Sys2Proof.Machine
end

