-- ==== Sys2Proof/Safety.lean ====
section
/-! DEFINITION. The terms claims are written in: the invariant of the machine, what a run without a fault is, how the
flags follow a result, and what an instruction leaves unchanged. -/

namespace Sys2Proof.Machine

/-- What holds after reset and is kept by every step: the memory is in its canonical form (log 1), the parameters
meet 00_scope.md R9, and a machine that has stopped has no service routine in progress (10_state.md R22). -/
structure State.Inv (s : State) : Prop where
  mem_wf : s.mem.wf
  cfg_wf : s.cfg.wf
  stopped_idle : s.rs ≠ .running → s.ts = .idle

/-- A run up to here met no fault of the hardware (60_exceptions.md R150). -/
def State.Unfaulted (s : State) : Prop := ∀ cause info, s.rs ≠ .faulted cause info

/-- `c` is the flag of the Word `v`: NEG for 0x8000 to 0xFFFF, ZERO for 0, POS for 0x0001 to 0x7FFF
(10_state.md R15). -/
structure FlagsFrom (c : Cond) (v : Word) : Prop where
  neg : 0x8000 ≤ v.toNat → c = .neg
  zero : v.toNat = 0 → c = .zero
  pos : 1 ≤ v.toNat → v.toNat ≤ 0x7FFF → c = .pos

/-- Every general register but `r` is unchanged. -/
def RegsSameBut (r : Reg) (s t : State) : Prop := ∀ q, q ≠ r → t.reg q = s.reg q

/-- Every general register is unchanged. -/
def RegsSame (s t : State) : Prop := ∀ q, t.reg q = s.reg q

/-- Every memory word but the one at `a` is unchanged. -/
def MemSameBut (a : Word) (s t : State) : Prop := ∀ b, b ≠ a → t.peek b = s.peek b

/-- Every memory word is unchanged. -/
def MemSame (s t : State) : Prop := ∀ b, t.peek b = s.peek b

/-- The run state and the trap FSM phase are unchanged. -/
structure ControlSame (s t : State) : Prop where
  rs : t.rs = s.rs
  ts : t.ts = s.ts

/-- What the host has still to supply and the parameters are unchanged. -/
structure HostSame (s t : State) : Prop where
  arrivals : t.arrivals = s.arrivals
  cfg : t.cfg = s.cfg

/-- The input source and the output sink are unchanged. -/
structure StreamsSame (s t : State) : Prop where
  input : t.input = s.input
  output : t.output = s.output

/-- Everything but the general registers, `pc` and `cond` is unchanged. -/
structure RestSame (s t : State) : Prop where
  mem : MemSame s t
  control : ControlSame s t
  streams : StreamsSame s t
  host : HostSame s t

/-- The register an instruction writes its result to, for the seven instructions that set the flags: "ADD, AND, NOT,
LD, LDI, LDR, LEA" (10_state.md R16). -/
def flagDest : Instr → Option Reg
  | .addReg dr _ _ => some dr
  | .addImm dr _ _ => some dr
  | .andReg dr _ _ => some dr
  | .andImm dr _ _ => some dr
  | .not dr _ => some dr
  | .br _ _ _ _ => none
  | .jmp _ => none
  | .ret => none
  | .jsr _ => none
  | .jsrr _ => none
  | .ld dr _ => some dr
  | .ldi dr _ => some dr
  | .ldr dr _ _ => some dr
  | .lea dr _ => some dr
  | .st _ _ => none
  | .sti _ _ => none
  | .str _ _ _ => none
  | .trap _ _ => none
  | .getc => none
  | .out => none
  | .puts => none
  | .inp => none
  | .putsp => none
  | .halt => none
  | .rti _ => none
  | .res _ => none

end Sys2Proof.Machine
end

