-- ==== Sys2Proof/Certificates/Slice0/Obligations.lean ====
section
/-! DEFINITION. The statements for the provers. Each says which rule of spec/ it formalises. In a statement about
`exec`, the state is the one after the fetch, so its `pc` is the post-increment value `A + 1` (10_state.md R12).
In a statement about `step`, `s.land` is the state once the host's bytes for this moment have landed (log 12). -/

open Sys2Proof Sys2Proof.Machine

/-! ### Encoding -/

/-- Instruction words written out in the worked examples of 40_operate.md to 45_unassigned.md decode to the
instructions they are printed beside. The opcode numbers are the default map's (92_eei_decisions.md D1, log 3). -/
def Obligations.PrintedWordsDecode : Prop :=
  decode .default 0b0001000001100001 = .ok (.addImm .r0 .r1 1) ∧
  decode .default 0b0101011001000010 = .ok (.andReg .r3 .r1 .r2) ∧
  decode .default 0b1001001010111111 = .ok (.not .r1 .r2) ∧
  decode .default 0b0000001111111101 = .ok (.br false false true 0x1FD) ∧
  decode .default 0b0100100000000101 = .ok (.jsr 5) ∧
  decode .default 0b0100000010000000 = .ok (.jsrr .r2) ∧
  decode .default 0b1010010000000001 = .ok (.ldi .r2 1) ∧
  decode .default 0b0110011001111111 = .ok (.ldr .r3 .r1 0x3F) ∧
  decode .default 0b1011001000000010 = .ok (.sti .r1 2) ∧
  decode .default 0b0111010011000100 = .ok (.str .r2 .r3 4) ∧
  decode .default 0b1100000111000000 = .ok .ret ∧
  decode .default 0b1111000000100101 = .ok .halt ∧
  decode .default 0b1111000000100110 = .ok (.trap 0 0x26) ∧
  decode .default 0b1000000000000000 = .ok (.rti 0)

/-- The default map gives each opcode the number of the table of 30_encoding.md R56, and is a bijection as R9 asks.
All numbers but RTI's and RES's are the spec's own default (92_eei_decisions.md D1, log 3). -/
def Obligations.DefaultMapIsTheSpecTable : Prop :=
  OpcodeMap.default.wf ∧
  Opcode.all.map OpcodeMap.default.code = (List.range 16).map (BitVec.ofNat 4) ∧
  Opcode.all = [.br, .add, .ld, .st, .jsr, .and, .ldr, .str, .rti, .not, .ldi, .sti, .jmp, .res, .lea, .trap]

/-- Under every admitted opcode map, decoding the Word of a well-formed instruction gives that instruction back, with
every operand (30_encoding.md R53). -/
def Obligations.DecodeOfEncodeIsIdentity : Prop :=
  ∀ (m : OpcodeMap) (i : Instr), m.wf → i.wf = true → decode m (encode m i) = .ok i

/-- Under every admitted opcode map, every Word decodes to a well-formed instruction, whose own Word agrees with it on
every bit that decides the instruction: decoding drops no such bit and mixes up none (30_encoding.md R53, R58). -/
def Obligations.EncodeOfDecodeKeepsReadBits : Prop :=
  ∀ (m : OpcodeMap) (w : Word), m.wf →
    ∃ i, decode m w = .ok i ∧ i.wf = true ∧ encode m i &&& i.readMask = w &&& i.readMask

/-- Bits of an instruction that its format does not read do not change which instruction it is: "Any value in them
gives the same instruction" (30_encoding.md R57; the choice is 92_eei_decisions.md D15, log 17). In TRAP, RTI and
RES words the bits [11:8] or [11:0] are kept for the fault record, and there they change nothing but the record. -/
def Obligations.UnreadBitsDoNotChangeTheInstruction : Prop :=
  (∀ (m : OpcodeMap) (w w' : Word) (i : Instr),
    decode m w = .ok i → w' &&& i.readMask = w &&& i.readMask → decode m w' = .ok i) ∧
  (∀ r : Reg, ∀ q : Reg, (Instr.addReg r q r).readMask = ~~~0b0000000000011000 ∧
    (Instr.andReg r q r).readMask = ~~~0b0000000000011000 ∧ (Instr.not r q).readMask = ~~~0b0000000000111111 ∧
    (Instr.jmp r).readMask = ~~~0b0000111000111111 ∧ (Instr.jsrr r).readMask = ~~~0b0000011000111111) ∧
  (∀ i ∈ [Instr.getc, .out, .puts, .inp, .putsp, .halt], i.readMask = ~~~0b0000111100000000) ∧
  (∀ (u u' : BitVec 4) (v : BitVec 8) (s : State), ∃ t t', exec (.trap u v) s = .next t ∧
    exec (.trap u' v) s = .next t' ∧ t.setRs .running = t'.setRs .running) ∧
  (∀ (u u' : BitVec 12) (s : State), ∃ t t', exec (.rti u) s = .next t ∧ exec (.rti u') s = .next t' ∧
    t.setRs .running = t'.setRs .running) ∧
  (∀ (u u' : BitVec 12) (s : State), ∃ t t', exec (.res u) s = .next t ∧ exec (.res u') s = .next t' ∧
    t.setRs .running = t'.setRs .running)

/-- The illegal Words are exactly `0x8000` to `0x8FFF` (RTI) and `0xD000` to `0xDFFF` (RES), under every admitted map
(30_encoding.md R58(a), 45_unassigned.md R132). -/
def Obligations.IllegalWordsAreTheTwoUnassignedRanges : Prop :=
  ∀ (m : OpcodeMap) (w : Word), m.wf →
    ((∃ u, decode m w = .ok (.rti u)) ↔ 0x8000 ≤ w.toNat ∧ w.toNat ≤ 0x8FFF) ∧
    ((∃ u, decode m w = .ok (.res u)) ↔ 0xD000 ≤ w.toNat ∧ w.toNat ≤ 0xDFFF)

/-! ### Primitives -/

/-- `sext_N` (00_scope.md R6), bit by bit and as a number, for every width from 1 to 16; and `zext_8` (R7), "the
16-bit Word with the same unsigned value". -/
def Obligations.ExtensionsKeepTheValue : Prop :=
  (∀ (n : Nat) (f : BitVec n), 1 ≤ n → n ≤ 16 →
    (f.getLsbD (n - 1) = false → (sext f).toNat = f.toNat) ∧
    (f.getLsbD (n - 1) = true → (sext f).toNat = (f.toNat + 65536 - 2 ^ n) % 65536) ∧
    (∀ i, i < n → (sext f).getLsbD i = f.getLsbD i) ∧
    (∀ i, n ≤ i → i < 16 → (sext f).getLsbD i = f.getLsbD (n - 1))) ∧
  ∀ b : Byte, (zext b).toNat = b.toNat ∧ (∀ i, i < 8 → (zext b).getLsbD i = b.getLsbD i) ∧
    ∀ i, 8 ≤ i → (zext b).getLsbD i = false

/-- `setcc` (10_state.md R15) writes `cond` from the Word, for every Word, and writes nothing else. -/
def Obligations.SetccFollowsTheWord : Prop :=
  ∀ (v : Word) (s : State), FlagsFrom (setcc v s).cond v ∧ RegsSame s (setcc v s) ∧ (setcc v s).pc = s.pc ∧
    RestSame s (setcc v s)

/-- The general registers (10_state.md R10): eight of them, named by the eight values of a field, 0 at reset; a
register reads the Word last written to it, a write changes no other register and no other state, and R0 is an
ordinary register. -/
def Obligations.RegistersHoldTheLastWord : Prop :=
  (∀ b : BitVec 3, (Reg.ofBits b).toBits = b) ∧ (∀ r : Reg, Reg.ofBits r.toBits = r) ∧
  (∀ r : Reg, State.reset.reg r = 0x0000) ∧
  ∀ (s : State) (r : Reg) (v : Word), (s.setReg r v).reg r = v ∧ RegsSameBut r s (s.setReg r v) ∧
    (s.setReg r v).pc = s.pc ∧ (s.setReg r v).cond = s.cond ∧ RestSame s (s.setReg r v)

/-- `setcc` of the destination is applied by exactly "ADD, AND, NOT, LD, LDI, LDR, LEA"; no other instruction and no
step of a trap routine changes `cond`, and "The only reader of `cond` is BR": what any other instruction does does not
depend on it (10_state.md R16). Every instruction of the machine completes, from every state: for RTI, RES and a TRAP
with no handler that is 92_eei_decisions.md D16 (log 15). The steps of a trap routine are D14 (log 19). -/
def Obligations.FlagsAreSetByExactlySeven : Prop :=
  (∀ (i : Instr) (s : State), ∃ t, exec i s = .next t ∧
    (∀ dr, flagDest i = some dr → FlagsFrom t.cond (t.reg dr)) ∧ (flagDest i = none → t.cond = s.cond)) ∧
  (∀ s t : State, step s = .next t → s.ts ≠ .idle → t.cond = s.cond) ∧
  (∀ (i : Instr) (s : State) (c : Cond), (∀ n z p off9, i ≠ .br n z p off9) →
    ∃ t t', exec i s = .next t ∧ exec i (s.setCond c) = .next t' ∧ t'.setCond t.cond = t)

/-! ### Memory and the keyboard -/

/-- `MemRead` (20_memory.md R30): the poll runs first at the keyboard-status address and only there, and the Word
returned is the one stored after it. -/
def Obligations.BusReadPollsOnlyTheStatusCell : Prop :=
  ∀ (a : Word) (s : State),
    (a = s.cfg.kbsrAddr → memRead a s = ((keyboardPoll s).peek a, keyboardPoll s)) ∧
    (a ≠ s.cfg.kbsrAddr → memRead a s = (s.peek a, s))

/-- `KeyboardPoll` (20_memory.md R31), for distinct device addresses as 00_scope.md R9 asks. That the byte leaves the
input source is 92_eei_decisions.md D8 (log 10). -/
def Obligations.KeyboardPollMovesOneByte : Prop :=
  ∀ s : State, s.cfg.kbsrAddr ≠ s.cfg.kbdrAddr →
    (∀ b rest, s.input = b :: rest →
      (keyboardPoll s).peek s.cfg.kbsrAddr = 0x8000 ∧ ((keyboardPoll s).peek s.cfg.kbdrAddr).toNat = b.toNat ∧
      (∀ a, a ≠ s.cfg.kbsrAddr → a ≠ s.cfg.kbdrAddr → (keyboardPoll s).peek a = s.peek a) ∧
      (keyboardPoll s).input = rest) ∧
    (s.input = [] →
      (keyboardPoll s).peek s.cfg.kbsrAddr = 0x0000 ∧ MemSameBut s.cfg.kbsrAddr s (keyboardPoll s) ∧
      (keyboardPoll s).input = []) ∧
    RegsSame s (keyboardPoll s) ∧ (keyboardPoll s).pc = s.pc ∧ (keyboardPoll s).cond = s.cond ∧
    (keyboardPoll s).output = s.output ∧ ControlSame s (keyboardPoll s) ∧ HostSame s (keyboardPoll s)

/-- Reading KBSR twice with two bytes pending consumes both, and KBDR keeps only the second (20_memory.md R45(b);
log 10). -/
def Obligations.SecondPollOverwritesTheFirstByte : Prop :=
  ∀ (s : State) (b c : Byte) (rest : List Byte), s.cfg.kbsrAddr ≠ s.cfg.kbdrAddr → s.input = b :: c :: rest →
    (memRead s.cfg.kbsrAddr s).1 = 0x8000 ∧
    (memRead s.cfg.kbsrAddr (memRead s.cfg.kbsrAddr s).2).1 = 0x8000 ∧
    (memRead s.cfg.kbdrAddr (memRead s.cfg.kbsrAddr (memRead s.cfg.kbsrAddr s).2).2).1 = zext c ∧
    (memRead s.cfg.kbsrAddr (memRead s.cfg.kbsrAddr s).2).2.input = rest

/-- `MemWrite` (20_memory.md R33) stores the Word at every address, and has no other effect at any address. -/
def Obligations.BusWriteStoresExactlyOneWord : Prop :=
  ∀ (a v : Word) (s : State), (memWrite a v s).peek a = v ∧ MemSameBut a s (memWrite a v s) ∧
    RegsSame s (memWrite a v s) ∧ (memWrite a v s).pc = s.pc ∧ (memWrite a v s).cond = s.cond ∧
    ControlSame s (memWrite a v s) ∧ StreamsSame s (memWrite a v s) ∧ HostSame s (memWrite a v s)

/-- The canonical form leaves one list for one memory: two canonical memories that read alike at every address are
the same list (the form is the model's own, log 1). -/
def Obligations.CanonicalMemoryIsUnique : Prop :=
  ∀ m m' : Memory, m.wf → m'.wf → (∀ a, m.read a = m'.read a) → m = m'

/-- The fetch (30_encoding.md R50 step 1, 10_state.md R12): the Word is a bus read at `pc`, and `pc` is then one more,
from 0xFFFF to 0x0000; nothing else changes but what the bus read changes. -/
def Obligations.FetchReadsTheBusThenIncrements : Prop :=
  ∀ s : State, (fetch s).1 = (memRead s.pc s).1 ∧ (fetch s).2.pc.toNat = (s.pc.toNat + 1) % 65536 ∧
    RegsSame s (fetch s).2 ∧ (fetch s).2.cond = s.cond ∧ MemSame (memRead s.pc s).2 (fetch s).2 ∧
    (fetch s).2.input = (memRead s.pc s).2.input ∧ (fetch s).2.output = s.output ∧ ControlSame s (fetch s).2 ∧
    HostSame s (fetch s).2

/-- Fetching from `KBSR_ADDR` polls the keyboard and fetches `0x8000` or `0x0000`, whatever was stored there
(20_memory.md R32), for distinct device addresses. -/
def Obligations.FetchFromTheStatusCellPolls : Prop :=
  ∀ s : State, s.cfg.kbsrAddr ≠ s.cfg.kbdrAddr → s.pc = s.cfg.kbsrAddr →
    (fetch s).1 = (if s.input = [] then 0x0000 else 0x8000) ∧ (fetch s).2.input = s.input.tail

/-- A store, by ST, STI or STR, is seen by a later fetch with no action by software (20_memory.md R42), at every
address but the keyboard-status address, whose read polls. -/
def Obligations.StoreIsSeenByTheNextFetch : Prop :=
  (∀ (s : State) (sr : Reg) (off9 : BitVec 9), s.pc + sext off9 ≠ s.cfg.kbsrAddr →
    ∃ t, exec (.st sr off9) s = .next t ∧ (fetch (t.setPc (s.pc + sext off9))).1 = s.reg sr) ∧
  (∀ (s : State) (sr : Reg) (off9 : BitVec 9), (pointerRead off9 s).1 ≠ s.cfg.kbsrAddr →
    ∃ t, exec (.sti sr off9) s = .next t ∧ (fetch (t.setPc (pointerRead off9 s).1)).1 = s.reg sr) ∧
  (∀ (s : State) (sr base : Reg) (off6 : BitVec 6), s.reg base + sext off6 ≠ s.cfg.kbsrAddr →
    ∃ t, exec (.str sr base off6) s = .next t ∧ (fetch (t.setPc (s.reg base + sext off6))).1 = s.reg sr)

/-! ### Operate instructions -/

/-- ADD (40_operate.md R70): both forms, their words under every admitted map, the sum modulo 65536, the flags, and the
frame. -/
def Obligations.AddWrapsAndSetsFlags : Prop :=
  (∀ (m : OpcodeMap) (w : Word), m.wf → w.extractLsb' 12 4 = m.add →
    decode m w = .ok (if w.getLsbD 5 = false
      then .addReg (.ofBits (w.extractLsb' 9 3)) (.ofBits (w.extractLsb' 6 3)) (.ofBits (w.extractLsb' 0 3))
      else .addImm (.ofBits (w.extractLsb' 9 3)) (.ofBits (w.extractLsb' 6 3)) (w.extractLsb' 0 5))) ∧
  (∀ (s : State) (dr sr1 sr2 : Reg), ∃ t, exec (.addReg dr sr1 sr2) s = .next t ∧
    (t.reg dr).toNat = ((s.reg sr1).toNat + (s.reg sr2).toNat) % 65536 ∧ FlagsFrom t.cond (t.reg dr) ∧
    RegsSameBut dr s t ∧ t.pc = s.pc ∧ RestSame s t) ∧
  (∀ (s : State) (dr sr1 : Reg) (imm5 : BitVec 5), ∃ t, exec (.addImm dr sr1 imm5) s = .next t ∧
    (t.reg dr).toNat = ((s.reg sr1).toNat + (sext imm5).toNat) % 65536 ∧ FlagsFrom t.cond (t.reg dr) ∧
    RegsSameBut dr s t ∧ t.pc = s.pc ∧ RestSame s t)

/-- AND (40_operate.md R71): both forms, "bit i of r = bit i of x[SR1] and bit i of op2", the immediate sign-extended
before the and; words, flags and frame. -/
def Obligations.AndIsBitwiseAndSetsFlags : Prop :=
  (∀ (m : OpcodeMap) (w : Word), m.wf → w.extractLsb' 12 4 = m.and →
    decode m w = .ok (if w.getLsbD 5 = false
      then .andReg (.ofBits (w.extractLsb' 9 3)) (.ofBits (w.extractLsb' 6 3)) (.ofBits (w.extractLsb' 0 3))
      else .andImm (.ofBits (w.extractLsb' 9 3)) (.ofBits (w.extractLsb' 6 3)) (w.extractLsb' 0 5))) ∧
  (∀ (s : State) (dr sr1 sr2 : Reg), ∃ t, exec (.andReg dr sr1 sr2) s = .next t ∧
    (∀ i, i < 16 → (t.reg dr).getLsbD i = ((s.reg sr1).getLsbD i && (s.reg sr2).getLsbD i)) ∧
    FlagsFrom t.cond (t.reg dr) ∧ RegsSameBut dr s t ∧ t.pc = s.pc ∧ RestSame s t) ∧
  (∀ (s : State) (dr sr1 : Reg) (imm5 : BitVec 5), ∃ t, exec (.andImm dr sr1 imm5) s = .next t ∧
    (∀ i, i < 16 → (t.reg dr).getLsbD i = ((s.reg sr1).getLsbD i && (sext imm5).getLsbD i)) ∧
    FlagsFrom t.cond (t.reg dr) ∧ RegsSameBut dr s t ∧ t.pc = s.pc ∧ RestSame s t)

/-- NOT (40_operate.md R72): "all 16 bits inverted; r = 0xFFFF - x[SR]"; words, flags and frame. -/
def Obligations.NotComplementsAndSetsFlags : Prop :=
  (∀ (m : OpcodeMap) (w : Word), m.wf → w.extractLsb' 12 4 = m.not →
    decode m w = .ok (.not (.ofBits (w.extractLsb' 9 3)) (.ofBits (w.extractLsb' 6 3)))) ∧
  (∀ (s : State) (dr sr : Reg), ∃ t, exec (.not dr sr) s = .next t ∧
    (t.reg dr).toNat = 0xFFFF - (s.reg sr).toNat ∧
    (∀ i, i < 16 → (t.reg dr).getLsbD i = !(s.reg sr).getLsbD i) ∧
    FlagsFrom t.cond (t.reg dr) ∧ RegsSameBut dr s t ∧ t.pc = s.pc ∧ RestSame s t)

/-- Register form and immediate form of ADD and AND agree when the register holds the sign-extended immediate
(40_operate.md R74). -/
def Obligations.RegisterAndImmediateFormsAgree : Prop :=
  ∀ (s : State) (dr sr1 sr2 : Reg) (imm5 : BitVec 5), s.reg sr2 = sext imm5 →
    exec (.addReg dr sr1 sr2) s = exec (.addImm dr sr1 imm5) s ∧
    exec (.andReg dr sr1 sr2) s = exec (.andImm dr sr1 imm5) s

/-! ### Control transfer -/

/-- BR (41_control.md R80): the words, the test of the mask against `cond`, the target, and the frame. That bit 11 tests
NEG, bit 10 ZERO and bit 9 POS is the reading of 10_state.md R14 and 92_eei_decisions.md D3 (log 28). -/
def Obligations.BranchTestsTheMask : Prop :=
  (∀ (m : OpcodeMap) (w : Word), m.wf → w.extractLsb' 12 4 = m.br →
    decode m w = .ok (.br (w.getLsbD 11) (w.getLsbD 10) (w.getLsbD 9) (w.extractLsb' 0 9))) ∧
  (∀ (s : State) (n z p : Bool) (off9 : BitVec 9), ∃ t, exec (.br n z p off9) s = .next t ∧
    ((n = true ∧ s.cond = .neg) ∨ (z = true ∧ s.cond = .zero) ∨ (p = true ∧ s.cond = .pos) →
      t.pc.toNat = (s.pc.toNat + (sext off9).toNat) % 65536) ∧
    (¬((n = true ∧ s.cond = .neg) ∨ (z = true ∧ s.cond = .zero) ∨ (p = true ∧ s.cond = .pos)) → t.pc = s.pc) ∧
    t.cond = s.cond ∧ RegsSame s t ∧ RestSame s t)

/-- JMP and its RET idiom (41_control.md R81): the words, the target for every base, and the frame. That the words with
base 7 are an instruction of their own, `ret`, is the model's choice for the alias of 30_encoding.md R61 (log 18). That
the bits no field names are ignored is 92_eei_decisions.md D15 (log 17). -/
def Obligations.JumpGoesToTheBaseRegister : Prop :=
  (∀ (m : OpcodeMap) (w : Word), m.wf → w.extractLsb' 12 4 = m.jmp →
    decode m w = .ok (if w.extractLsb' 6 3 = 0b111#3 then .ret else .jmp (.ofBits (w.extractLsb' 6 3)))) ∧
  (∀ (s : State) (base : Reg), ∃ t, exec (.jmp base) s = .next t ∧ t.pc = s.reg base ∧ t.cond = s.cond ∧
    RegsSame s t ∧ RestSame s t) ∧
  (∀ s : State, ∃ t, exec .ret s = .next t ∧ t.pc = s.reg .r7 ∧ t.cond = s.cond ∧ RegsSame s t ∧ RestSame s t)

/-- JSR (41_control.md R82): the words, the link, the target, and the frame. -/
def Obligations.JsrLinksAndJumps : Prop :=
  (∀ (m : OpcodeMap) (w : Word), m.wf → w.extractLsb' 12 4 = m.jsr → w.getLsbD 11 = true →
    decode m w = .ok (.jsr (w.extractLsb' 0 11))) ∧
  (∀ (s : State) (off11 : BitVec 11), ∃ t, exec (.jsr off11) s = .next t ∧ t.reg .r7 = s.pc ∧
    t.pc.toNat = (s.pc.toNat + (sext off11).toNat) % 65536 ∧ t.cond = s.cond ∧ RegsSameBut .r7 s t ∧ RestSame s t)

/-- JSRR (41_control.md R83): the words, the link, the target, and the frame. That the link is written before the base
is read, so that `JSRR R7` falls through, is 92_eei_decisions.md D17 (log 16). -/
def Obligations.JsrrLinksThenReadsTheBase : Prop :=
  (∀ (m : OpcodeMap) (w : Word), m.wf → w.extractLsb' 12 4 = m.jsr → w.getLsbD 11 = false →
    decode m w = .ok (.jsrr (.ofBits (w.extractLsb' 6 3)))) ∧
  (∀ (s : State) (base : Reg), ∃ t, exec (.jsrr base) s = .next t ∧ t.reg .r7 = s.pc ∧
    t.pc = (if base = .r7 then s.pc else s.reg base) ∧ t.cond = s.cond ∧ RegsSameBut .r7 s t ∧ RestSame s t)

/-! ### Loads and LEA -/

/-- LD (42_load.md R90): the words, one bus read at `pc + sext_9(off9)`, the result, the flags, and the frame; memory
and input are as the bus read leaves them, and unchanged when the address is not the keyboard-status address. -/
def Obligations.LoadReadsPcRelative : Prop :=
  (∀ (m : OpcodeMap) (w : Word), m.wf → w.extractLsb' 12 4 = m.ld →
    decode m w = .ok (.ld (.ofBits (w.extractLsb' 9 3)) (w.extractLsb' 0 9))) ∧
  (∀ (s : State) (dr : Reg) (off9 : BitVec 9), ∃ t, exec (.ld dr off9) s = .next t ∧
    t.reg dr = (memRead (s.pc + sext off9) s).1 ∧ FlagsFrom t.cond (t.reg dr) ∧ RegsSameBut dr s t ∧ t.pc = s.pc ∧
    MemSame (memRead (s.pc + sext off9) s).2 t ∧ t.input = (memRead (s.pc + sext off9) s).2.input ∧
    (s.pc + sext off9 ≠ s.cfg.kbsrAddr → t.reg dr = s.peek (s.pc + sext off9) ∧ MemSame s t ∧ t.input = s.input) ∧
    t.output = s.output ∧ ControlSame s t ∧ HostSame s t)

/-- LDI (42_load.md R91): the pointer is read first, then the data; the flags are the data's; and the frame. -/
def Obligations.LoadIndirectReadsTwice : Prop :=
  (∀ (m : OpcodeMap) (w : Word), m.wf → w.extractLsb' 12 4 = m.ldi →
    decode m w = .ok (.ldi (.ofBits (w.extractLsb' 9 3)) (w.extractLsb' 0 9))) ∧
  (∀ (s : State) (off9 : BitVec 9), pointerRead off9 s = memRead (s.pc + sext off9) s) ∧
  (∀ (s : State) (dr : Reg) (off9 : BitVec 9), ∃ t, exec (.ldi dr off9) s = .next t ∧
    t.reg dr = (memRead (pointerRead off9 s).1 (pointerRead off9 s).2).1 ∧ FlagsFrom t.cond (t.reg dr) ∧
    RegsSameBut dr s t ∧ t.pc = s.pc ∧
    MemSame (memRead (pointerRead off9 s).1 (pointerRead off9 s).2).2 t ∧
    t.input = (memRead (pointerRead off9 s).1 (pointerRead off9 s).2).2.input ∧
    (s.pc + sext off9 ≠ s.cfg.kbsrAddr → s.peek (s.pc + sext off9) ≠ s.cfg.kbsrAddr →
      t.reg dr = s.peek (s.peek (s.pc + sext off9)) ∧ MemSame s t ∧ t.input = s.input) ∧
    t.output = s.output ∧ ControlSame s t ∧ HostSame s t)

/-- LDR (42_load.md R92): one bus read at `x[base] + sext_6(off6)`; base is read before DR is written. -/
def Obligations.LoadReadsBasePlusOffset : Prop :=
  (∀ (m : OpcodeMap) (w : Word), m.wf → w.extractLsb' 12 4 = m.ldr →
    decode m w = .ok (.ldr (.ofBits (w.extractLsb' 9 3)) (.ofBits (w.extractLsb' 6 3)) (w.extractLsb' 0 6))) ∧
  (∀ (s : State) (dr base : Reg) (off6 : BitVec 6), ∃ t, exec (.ldr dr base off6) s = .next t ∧
    t.reg dr = (memRead (s.reg base + sext off6) s).1 ∧ FlagsFrom t.cond (t.reg dr) ∧ RegsSameBut dr s t ∧
    t.pc = s.pc ∧ MemSame (memRead (s.reg base + sext off6) s).2 t ∧
    t.input = (memRead (s.reg base + sext off6) s).2.input ∧
    (s.reg base + sext off6 ≠ s.cfg.kbsrAddr →
      t.reg dr = s.peek (s.reg base + sext off6) ∧ MemSame s t ∧ t.input = s.input) ∧
    t.output = s.output ∧ ControlSame s t ∧ HostSame s t)

/-- LEA (42_load.md R93): the address, no memory access (so no poll), and the flags of the address. -/
def Obligations.LeaComputesTheAddress : Prop :=
  (∀ (m : OpcodeMap) (w : Word), m.wf → w.extractLsb' 12 4 = m.lea →
    decode m w = .ok (.lea (.ofBits (w.extractLsb' 9 3)) (w.extractLsb' 0 9))) ∧
  (∀ (s : State) (dr : Reg) (off9 : BitVec 9), ∃ t, exec (.lea dr off9) s = .next t ∧
    (t.reg dr).toNat = (s.pc.toNat + (sext off9).toNat) % 65536 ∧ FlagsFrom t.cond (t.reg dr) ∧ RegsSameBut dr s t ∧
    t.pc = s.pc ∧ RestSame s t)

/-! ### Stores -/

/-- ST (43_store.md R100): the words, the one Word stored at `pc + sext_9(off9)`, and the frame. -/
def Obligations.StoreWritesPcRelative : Prop :=
  (∀ (m : OpcodeMap) (w : Word), m.wf → w.extractLsb' 12 4 = m.st →
    decode m w = .ok (.st (.ofBits (w.extractLsb' 9 3)) (w.extractLsb' 0 9))) ∧
  (∀ (s : State) (sr : Reg) (off9 : BitVec 9), ∃ t, exec (.st sr off9) s = .next t ∧
    t.peek (s.pc + sext off9) = s.reg sr ∧ MemSameBut (s.pc + sext off9) s t ∧ RegsSame s t ∧ t.pc = s.pc ∧
    t.cond = s.cond ∧ ControlSame s t ∧ StreamsSame s t ∧ HostSame s t)

/-- STI (43_store.md R101): one bus read of the pointer, one Word stored at it, and the frame; memory elsewhere and
input are as the pointer's read leaves them, and unchanged when the pointer's address is not the keyboard-status
address. -/
def Obligations.StoreIndirectWritesThroughThePointer : Prop :=
  (∀ (m : OpcodeMap) (w : Word), m.wf → w.extractLsb' 12 4 = m.sti →
    decode m w = .ok (.sti (.ofBits (w.extractLsb' 9 3)) (w.extractLsb' 0 9))) ∧
  (∀ (s : State) (off9 : BitVec 9), pointerRead off9 s = memRead (s.pc + sext off9) s) ∧
  (∀ (s : State) (sr : Reg) (off9 : BitVec 9), ∃ t, exec (.sti sr off9) s = .next t ∧
    t.peek (pointerRead off9 s).1 = s.reg sr ∧ MemSameBut (pointerRead off9 s).1 (pointerRead off9 s).2 t ∧
    t.input = (pointerRead off9 s).2.input ∧
    (s.pc + sext off9 ≠ s.cfg.kbsrAddr → t.peek (s.peek (s.pc + sext off9)) = s.reg sr ∧
      MemSameBut (s.peek (s.pc + sext off9)) s t ∧ t.input = s.input) ∧
    RegsSame s t ∧ t.pc = s.pc ∧ t.cond = s.cond ∧ t.output = s.output ∧ ControlSame s t ∧ HostSame s t)

/-- STR (43_store.md R102): the words, the one Word stored at `x[base] + sext_6(off6)`, and the frame. -/
def Obligations.StoreWritesBasePlusOffset : Prop :=
  (∀ (m : OpcodeMap) (w : Word), m.wf → w.extractLsb' 12 4 = m.str →
    decode m w = .ok (.str (.ofBits (w.extractLsb' 9 3)) (.ofBits (w.extractLsb' 6 3)) (w.extractLsb' 0 6))) ∧
  (∀ (s : State) (sr base : Reg) (off6 : BitVec 6), ∃ t, exec (.str sr base off6) s = .next t ∧
    t.peek (s.reg base + sext off6) = s.reg sr ∧ MemSameBut (s.reg base + sext off6) s t ∧ RegsSame s t ∧
    t.pc = s.pc ∧ t.cond = s.cond ∧ ControlSame s t ∧ StreamsSame s t ∧ HostSame s t)

/-! ### TRAP and the service routines -/

/-- TRAP (44_trap.md R110): every word of the opcode decodes to TRAP or to the routine its vector selects; `x[7]` is
the post-increment `pc` for every vector, defined or not; the six vectors dispatch to the six routines; `pc`, `cond`,
the other registers, memory and the input source are unchanged. -/
def Obligations.TrapLinksThenDispatches : Prop :=
  (∀ (m : OpcodeMap) (w : Word), m.wf → w.extractLsb' 12 4 = m.trap →
    decode m w = .ok (if w.extractLsb' 0 8 = 0x20#8 then .getc else if w.extractLsb' 0 8 = 0x21#8 then .out
      else if w.extractLsb' 0 8 = 0x22#8 then .puts else if w.extractLsb' 0 8 = 0x23#8 then .inp
      else if w.extractLsb' 0 8 = 0x24#8 then .putsp else if w.extractLsb' 0 8 = 0x25#8 then .halt
      else .trap (w.extractLsb' 8 4) (w.extractLsb' 0 8))) ∧
  (∀ (s : State) (u : BitVec 4) (vec8 : BitVec 8), ∃ t, exec (.trap u vec8) s = .next t ∧ t.reg .r7 = s.pc ∧
    RegsSameBut .r7 s t ∧ t.pc = s.pc ∧ t.cond = s.cond ∧ MemSame s t ∧ t.input = s.input ∧ HostSame s t) ∧
  (∀ (s : State) (u : BitVec 4), exec (.trap u 0x20) s = exec .getc s ∧ exec (.trap u 0x21) s = exec .out s ∧
    exec (.trap u 0x22) s = exec .puts s ∧ exec (.trap u 0x23) s = exec .inp s ∧
    exec (.trap u 0x24) s = exec .putsp s ∧ exec (.trap u 0x25) s = exec .halt s)

/-- OUT (44_trap.md R112): the low 8 bits of `x[0]` are emitted, as one byte, in the TRAP step; `x[7]` is linked; the
frame. -/
def Obligations.OutEmitsTheLowByte : Prop :=
  ∀ s : State, ∃ t, exec .out s = .next t ∧
    (∃ b : Byte, b.toNat = (s.reg .r0).toNat % 256 ∧ t.output = s.output ++ [b]) ∧
    t.reg .r7 = s.pc ∧ RegsSameBut .r7 s t ∧ t.pc = s.pc ∧ t.cond = s.cond ∧ MemSame s t ∧ t.input = s.input ∧
    ControlSame s t ∧ HostSame s t

/-- HALT (44_trap.md R116): the notice is emitted, byte by byte in order, the run state goes to HALTED, and the machine
has no further step; `x[7]` is linked; the frame. The text of the notice is a parameter (log 8), and that it goes to the
one output sink is 92_eei_decisions.md D11 (log 22). -/
def Obligations.HaltEmitsTheNoticeAndHalts : Prop :=
  ∀ s : State, ∃ t, exec .halt s = .next t ∧ t.output = s.output ++ s.cfg.haltNotice ∧ t.rs = .halted ∧
    (∀ u, step t ≠ .next u) ∧ t.ts = s.ts ∧ t.reg .r7 = s.pc ∧ RegsSameBut .r7 s t ∧ t.pc = s.pc ∧ t.cond = s.cond ∧
    MemSame s t ∧ t.input = s.input ∧ HostSame s t

/-- GETC, PUTS, IN and PUTSP within the TRAP instruction's own step (44_trap.md R111, R113, R114, R115): the phase each
goes to, what each emits, the link, and the frame. The phases are 92_eei_decisions.md D14 (log 19), the text of the
prompt is a parameter (log 8). -/
def Obligations.WaitingAndStringRoutinesStart : Prop :=
  ∀ s : State,
    (∃ t, exec .getc s = .next t ∧ t.ts = .getcWait ∧ t.output = s.output ∧ t.rs = s.rs ∧ t.reg .r7 = s.pc ∧
      RegsSameBut .r7 s t ∧ t.pc = s.pc ∧ t.cond = s.cond ∧ MemSame s t ∧ t.input = s.input ∧ HostSame s t) ∧
    (∃ t, exec .puts s = .next t ∧ t.ts = .putsRun (s.reg .r0) ∧ t.output = s.output ∧ t.rs = s.rs ∧
      t.reg .r7 = s.pc ∧ RegsSameBut .r7 s t ∧ t.pc = s.pc ∧ t.cond = s.cond ∧ MemSame s t ∧ t.input = s.input ∧
      HostSame s t) ∧
    (∃ t, exec .inp s = .next t ∧ t.ts = .inWait ∧ t.output = s.output ++ s.cfg.inPrompt ∧ t.rs = s.rs ∧
      t.reg .r7 = s.pc ∧ RegsSameBut .r7 s t ∧ t.pc = s.pc ∧ t.cond = s.cond ∧ MemSame s t ∧ t.input = s.input ∧
      HostSame s t) ∧
    (∃ t, exec .putsp s = .next t ∧ t.ts = .putspRun (s.reg .r0) ∧ t.output = s.output ∧ t.rs = s.rs ∧
      t.reg .r7 = s.pc ∧ RegsSameBut .r7 s t ∧ t.pc = s.pc ∧ t.cond = s.cond ∧ MemSame s t ∧ t.input = s.input ∧
      HostSame s t)

/-- A vector outside 0x20 to 0x25 (44_trap.md R118): `x[7] <- pc` is done; then, under policy `fault`, UnrecognizedTrap
is raised with the instruction Word, and under policy `nop` nothing more happens. The choice of policies and the form
of the fault are 92_eei_decisions.md D6 and D16 (log 7, log 15). -/
def Obligations.UnknownVectorFollowsThePolicy : Prop :=
  ∀ (s : State) (u : BitVec 4) (vec8 : BitVec 8), vec8.toNat < 0x20 ∨ 0x25 < vec8.toNat →
    ∃ t, exec (.trap u vec8) s = .next t ∧
      (s.cfg.trapUnknownPolicy = .fault →
        t.rs = .faulted .unrecognizedTrap (s.cfg.opcodeMap.trap ++ (u ++ vec8) : BitVec 16)) ∧
      (s.cfg.trapUnknownPolicy = .nop → t.rs = s.rs) ∧
      t.ts = s.ts ∧ t.reg .r7 = s.pc ∧ RegsSameBut .r7 s t ∧ t.pc = s.pc ∧ t.cond = s.cond ∧ MemSame s t ∧
      StreamsSame s t ∧ HostSame s t

/-- The FSM steps of GETC_WAIT and IN_WAIT when a byte is pending (44_trap.md R117): the oldest byte is taken, IN
echoes it, `x[0]` gets it zero-extended, and the phase is IDLE again; `pc`, `x[7]`, `cond` and memory do not change.
The division into steps is 92_eei_decisions.md D14 (log 19). -/
def Obligations.WaitingRoutinesTakeOneByte : Prop :=
  ∀ (s : State) (b : Byte) (rest : List Byte), s.rs = .running → s.land.input = b :: rest →
    (s.ts = .getcWait → ∃ t, step s = .next t ∧ t.output = s.output ∧ (t.reg .r0).toNat = b.toNat ∧
      RegsSameBut .r0 s t ∧ t.input = rest ∧ t.ts = .idle ∧ t.rs = .running ∧ t.pc = s.pc ∧ t.cond = s.cond ∧
      MemSame s t ∧ HostSame s.land t) ∧
    (s.ts = .inWait → ∃ t, step s = .next t ∧ t.output = s.output ++ [b] ∧ (t.reg .r0).toNat = b.toNat ∧
      RegsSameBut .r0 s t ∧ t.input = rest ∧ t.ts = .idle ∧ t.rs = .running ∧ t.pc = s.pc ∧ t.cond = s.cond ∧
      MemSame s t ∧ HostSame s.land t)

/-- With no byte pending, GETC_WAIT and IN_WAIT hold: nothing changes but that the host's next batch lands
(44_trap.md R117). That a hold is a step that changes nothing is the model's choice (log 13). -/
def Obligations.WaitingRoutinesHoldWithoutInput : Prop :=
  ∀ s : State, s.rs = .running → s.ts = .getcWait ∨ s.ts = .inWait → s.land.input = [] → step s = .next s.land

/-- The FSM steps of PUTS_RUN(p) and PUTSP_RUN(p) (44_trap.md R117): one bus read at `p`; a zero Word ends the routine;
else PUTS emits the low byte, PUTSP the low byte and then the high byte if it is not zero, and the pointer moves on
modulo 65536. Memory and input are as the bus read leaves them; `pc`, registers and `cond` do not change. The division
into steps is 92_eei_decisions.md D14 (log 19), the read through the bus D12 and the wrap D13 (log 20). -/
def Obligations.StringRoutinesEmitOneWord : Prop :=
  ∀ (s : State) (p : Word), s.rs = .running →
    (s.ts = .putsRun p → ∃ t, step s = .next t ∧
      ((memRead p s.land).1 = 0 → t.ts = .idle ∧ t.output = s.output) ∧
      ((memRead p s.land).1 ≠ 0 → t.ts = .putsRun (p + 1) ∧
        t.output = s.output ++ [BitVec.ofNat 8 ((memRead p s.land).1.toNat % 256)]) ∧
      RegsSame s t ∧ t.pc = s.pc ∧ t.cond = s.cond ∧ t.rs = .running ∧ MemSame (memRead p s.land).2 t ∧
      t.input = (memRead p s.land).2.input ∧ HostSame s.land t) ∧
    (s.ts = .putspRun p → ∃ t, step s = .next t ∧
      ((memRead p s.land).1 = 0 → t.ts = .idle ∧ t.output = s.output) ∧
      ((memRead p s.land).1 ≠ 0 → t.ts = .putspRun (p + 1) ∧
        t.output = s.output ++ BitVec.ofNat 8 ((memRead p s.land).1.toNat % 256) ::
          (if (memRead p s.land).1.toNat / 256 = 0 then []
            else [BitVec.ofNat 8 ((memRead p s.land).1.toNat / 256)])) ∧
      RegsSame s t ∧ t.pc = s.pc ∧ t.cond = s.cond ∧ t.rs = .running ∧ MemSame (memRead p s.land).2 t ∧
      t.input = (memRead p s.land).2.input ∧ HostSame s.land t)

/-- PUTS as a whole (44_trap.md R119): from PUTS_RUN(p) over a string of `n` non-zero Words and a zero Word, none of
them at the keyboard-status address, `n + 1` steps of the machine emit the low byte of each Word in order and bring the
phase back to IDLE, with registers, `pc`, `cond` and memory unchanged and no input byte taken. The number of steps is
92_eei_decisions.md D14 (log 19), the read through the bus D12 and the wrap of the pointer D13 (log 20). -/
def Obligations.PutsEmitsTheWholeString : Prop :=
  ∀ (ws : List Word) (s : State) (p : Word), s.rs = .running → s.ts = .putsRun p →
    (∀ k w, ws[k]? = some w → s.peek (p + BitVec.ofNat 16 k) = w ∧ w ≠ 0) →
    s.peek (p + BitVec.ofNat 16 ws.length) = 0 →
    (∀ k, k ≤ ws.length → p + BitVec.ofNat 16 k ≠ s.cfg.kbsrAddr) →
    ∃ t : State, Host.Core.run Sys2Proof.core (ws.length + 1) s = .next t ∧
      t.output = s.output ++ ws.map (fun w => BitVec.ofNat 8 (w.toNat % 256)) ∧ t.ts = .idle ∧ t.rs = .running ∧
      RegsSame s t ∧ t.pc = s.pc ∧ t.cond = s.cond ∧ MemSame s t ∧
      t.input ++ t.arrivals.flatten = s.input ++ s.arrivals.flatten ∧ t.cfg = s.cfg

/-- PUTSP as a whole (44_trap.md R119): as PUTS, each Word giving its low byte and then its high byte if that is not
zero. The number of steps is 92_eei_decisions.md D14 (log 19), the read through the bus D12 and the wrap of the pointer
D13 (log 20). -/
def Obligations.PutspEmitsTheWholeString : Prop :=
  ∀ (ws : List Word) (s : State) (p : Word), s.rs = .running → s.ts = .putspRun p →
    (∀ k w, ws[k]? = some w → s.peek (p + BitVec.ofNat 16 k) = w ∧ w ≠ 0) →
    s.peek (p + BitVec.ofNat 16 ws.length) = 0 →
    (∀ k, k ≤ ws.length → p + BitVec.ofNat 16 k ≠ s.cfg.kbsrAddr) →
    ∃ t : State, Host.Core.run Sys2Proof.core (ws.length + 1) s = .next t ∧
      t.output = s.output ++ ws.flatMap (fun w => BitVec.ofNat 8 (w.toNat % 256) ::
        (if w.toNat / 256 = 0 then [] else [BitVec.ofNat 8 (w.toNat / 256)])) ∧ t.ts = .idle ∧ t.rs = .running ∧
      RegsSame s t ∧ t.pc = s.pc ∧ t.cond = s.cond ∧ MemSame s t ∧
      t.input ++ t.arrivals.flatten = s.input ++ s.arrivals.flatten ∧ t.cfg = s.cfg

/-! ### Faults and the run state -/

/-- RTI and RES (45_unassigned.md R130, R131): every word of the two opcodes, under every admitted map, and the fault:
`rs` records IllegalOpcode with the instruction Word, and nothing else changes. That a fault is a next state with `rs`
FAULTED is 92_eei_decisions.md D16 (log 15). -/
def Obligations.UnassignedOpcodesRaiseIllegalOpcode : Prop :=
  (∀ (m : OpcodeMap) (w : Word), m.wf → w.extractLsb' 12 4 = 0b1000#4 →
    decode m w = .ok (.rti (w.extractLsb' 0 12))) ∧
  (∀ (m : OpcodeMap) (w : Word), m.wf → w.extractLsb' 12 4 = 0b1101#4 →
    decode m w = .ok (.res (w.extractLsb' 0 12))) ∧
  (∀ (s : State) (u : BitVec 12), ∃ t, exec (.rti u) s = .next t ∧
    t.rs = .faulted .illegalOpcode (0b1000#4 ++ u : BitVec 16) ∧ t.ts = s.ts ∧ RegsSame s t ∧ t.pc = s.pc ∧
    t.cond = s.cond ∧ MemSame s t ∧ StreamsSame s t ∧ HostSame s t) ∧
  (∀ (s : State) (u : BitVec 12), ∃ t, exec (.res u) s = .next t ∧
    t.rs = .faulted .illegalOpcode (0b1101#4 ++ u : BitVec 16) ∧ t.ts = s.ts ∧ RegsSame s t ∧ t.pc = s.pc ∧
    t.cond = s.cond ∧ MemSame s t ∧ StreamsSame s t ∧ HostSame s t)

/-- A whole step over an unassigned opcode (60_exceptions.md R141, R142; 95_test_vectors.md E7), fetched anywhere but at
the keyboard-status address: "no further mutation beyond the PC increment already applied during fetch", and the fault
records the Word that was fetched (92_eei_decisions.md D16, log 15). -/
def Obligations.IllegalOpcodeChangesOnlyThePc : Prop :=
  ∀ s : State, s.cfg.wf → s.rs = .running → s.ts = .idle → s.pc ≠ s.cfg.kbsrAddr →
    (s.peek s.pc).extractLsb' 12 4 = 0b1000#4 ∨ (s.peek s.pc).extractLsb' 12 4 = 0b1101#4 →
    ∃ t, step s = .next t ∧ t.rs = .faulted .illegalOpcode (s.peek s.pc) ∧ t.pc = s.pc + 1 ∧ RegsSame s t ∧
      t.cond = s.cond ∧ t.ts = .idle ∧ MemSame s t ∧ StreamsSame s.land t ∧ HostSame s.land t

/-- A step runs the decoded instruction (30_encoding.md R50): in IDLE, when the Word fetched decodes to `i`, the step is
`exec i` in the state after the fetch, whose `pc` is one more. -/
def Obligations.StepRunsTheDecodedInstruction : Prop :=
  ∀ (s : State) (i : Instr), s.rs = .running → s.ts = .idle →
    decode s.cfg.opcodeMap (fetch s.land).1 = .ok i →
    step s = exec i (fetch s.land).2 ∧ (fetch s.land).2.pc = s.pc + 1

/-- "Only `RUNNING` has steps" (10_state.md R20), and in the model a running machine always has one: with parameters as
00_scope.md R9 asks, no Word, phase or input stops it (00_scope.md R8, 30_encoding.md R58(b)). For GETC_WAIT and IN_WAIT
with no byte pending that is the model's choice (log 13): there 44_trap.md R117 and 60_exceptions.md R149 give the held
machine no step, and the model's step changes nothing but that the host's next batch lands. In HALTED and FAULTED the
step answers a fault that names the state; that form is the model's choice too (log 14). -/
def Obligations.OnlyARunningMachineSteps : Prop :=
  ∀ s : State, (s.cfg.wf → s.rs = .running → ∃ t, step s = .next t) ∧
    (s.rs = .halted → step s = .fault .halted) ∧
    (∀ cause info, s.rs = .faulted cause info → step s = .fault (.stopped cause info))

/-- The transitions of the run state (60_exceptions.md R149): a step starts in RUNNING, and leaves it only by HALT to
HALTED, by RTI or RES to FAULTED(IllegalOpcode), or by a TRAP with no handler under policy `fault` to
FAULTED(UnrecognizedTrap), each with the fetched Word recorded (92_eei_decisions.md D6, D16, log 7, log 15). -/
def Obligations.RunStateChangesOnlyByTheTable : Prop :=
  ∀ s t : State, step s = .next t → s.rs = .running ∧
    (t.rs = .running ∨ s.ts = .idle ∧ ∃ i, decode s.cfg.opcodeMap (fetch s.land).1 = .ok i ∧
      ((i = .halt ∧ t.rs = .halted) ∨
       (((∃ u, i = .rti u) ∨ ∃ u, i = .res u) ∧ t.rs = .faulted .illegalOpcode (fetch s.land).1) ∨
       ((∃ u v, i = .trap u v) ∧ s.cfg.trapUnknownPolicy = .fault ∧
         t.rs = .faulted .unrecognizedTrap (fetch s.land).1)))

/-- Bytes leave the machine only through the OUT, PUTS, IN, PUTSP and HALT routines (60_exceptions.md R154): a step
that emits is a trap FSM step of IN, PUTS or PUTSP, or the instruction OUT, IN or HALT. -/
def Obligations.OnlyTrapRoutinesEmit : Prop :=
  ∀ s t : State, step s = .next t → t.output ≠ s.output →
    s.ts = .inWait ∨ (∃ p, s.ts = .putsRun p) ∨ (∃ p, s.ts = .putspRun p) ∨
    s.ts = .idle ∧ (decode s.cfg.opcodeMap (fetch s.land).1 = .ok .out ∨
      decode s.cfg.opcodeMap (fetch s.land).1 = .ok .inp ∨ decode s.cfg.opcodeMap (fetch s.land).1 = .ok .halt)

/-- The output trace is append-only (10_state.md R25): a step only adds bytes at its end. -/
def Obligations.OutputOnlyGrows : Prop :=
  ∀ s t : State, step s = .next t → ∃ bytes, t.output = s.output ++ bytes

/-- The input source is first-in first-out (10_state.md R24): a step only takes bytes from the front of what is pending
and to come, and adds none (log 10, log 12). -/
def Obligations.InputIsTakenInOrder : Prop :=
  ∀ s t : State, step s = .next t →
    ∃ taken, s.input ++ s.arrivals.flatten = taken ++ (t.input ++ t.arrivals.flatten)

/-- The parameters of 00_scope.md R9 are constants: no step changes them (the field is the model's own, log 2). -/
def Obligations.ParametersNeverChange : Prop :=
  ∀ s t : State, step s = .next t → t.cfg = s.cfg

/-- The model's own field `arrivals` means what 10_state.md R24 gives the host: a step with a batch to land is the step
of the machine to which the host has just supplied that batch (log 12). -/
def Obligations.ArrivalsAreHostSupplies : Prop :=
  ∀ (s : State) (batch : List Byte) (later : List (List Byte)), s.rs = .running → s.arrivals = batch :: later →
    step s = step { s.supply batch with arrivals := [] :: later }

/-- Every step keeps the invariant: canonical memory, admitted parameters, and no routine in progress in a machine that
has stopped (10_state.md R17, R22; 00_scope.md R9; log 1). -/
def Obligations.StepKeepsTheInvariant : Prop :=
  ∀ s t : State, s.Inv → step s = .next t → t.Inv

/-- The invariant holds at reset. -/
def Obligations.ResetMeetsTheInvariant : Prop := State.reset.Inv

/-! ### Reset, images and the host -/

/-- The invariant holds when the cycle begins, for every admitted configuration, every list of images and every input
(70_reset_and_hazards.md R160, R164). -/
def Obligations.PowerOnMeetsTheInvariant : Prop :=
  ∀ (c : Config) (images : List (List Byte)) (input : List Byte) (arrivals : List (List Byte)), c.wf →
    (State.powerOn c images input arrivals).Inv

/-- The state when the cycle begins (10_state.md R26), for every value of the parameters, every list of images and every
input the host supplies: each row of the table. The images are loaded one after another, so the last one wins. -/
def Obligations.PowerOnGivesTheResetValues : Prop :=
  ∀ (c : Config) (images : List (List Byte)) (input : List Byte) (arrivals : List (List Byte)),
    (∀ r, (State.powerOn c images input arrivals).reg r = 0x0000) ∧
    (State.powerOn c images input arrivals).pc = c.pcStart ∧
    (State.powerOn c images input arrivals).cond = c.condReset ∧
    (∀ a, (State.powerOn c [] input arrivals).peek a = 0x0000) ∧
    (∀ image, (State.powerOn c (images ++ [image]) input arrivals).mem =
      loadImage (State.powerOn c images input arrivals).mem image) ∧
    (State.powerOn c images input arrivals).rs = .running ∧ (State.powerOn c images input arrivals).ts = .idle ∧
    (State.powerOn c images input arrivals).input = input ∧ (State.powerOn c images input arrivals).output = [] ∧
    State.reset = State.powerOn .default [] [] []

/-- The image format and the load (70_reset_and_hazards.md R163, R164, R165). File word `k` is "byte_{2k} * 256 +
byte_{2k+1}", and there is "one Word per two bytes", no more; word 0 is the origin, and data word `j` goes to address
origin plus `j` as long as that is below 65536; the rest is dropped, the load never wraps, and every other Word keeps its
value. -/
def Obligations.ImageLoadWritesExactlyItsWords : Prop :=
  (∀ (file : List Byte) (k : Nat) (hi lo : Byte), file[2 * k]? = some hi → file[2 * k + 1]? = some lo →
    ∃ w, (imageWords file)[k]? = some w ∧ w.toNat = hi.toNat * 256 + lo.toNat) ∧
  (∀ (file : List Byte) (n : Nat), file.length = 2 * n → (imageWords file).length = n) ∧
  (∀ (m : Memory) (file : List Byte) (origin : Word) (ds : List Word), imageWords file = origin :: ds →
    (∀ (j : Nat) (d : Word), ds[j]? = some d → origin.toNat + j < 65536 →
      (loadImage m file).read (BitVec.ofNat 16 (origin.toNat + j)) = d) ∧
    (∀ a : Word, a.toNat < origin.toNat ∨ origin.toNat + ds.length ≤ a.toNat → (loadImage m file).read a = m.read a))

/-- The image files the source does not settle (70_reset_and_hazards.md R166): a trailing odd byte is ignored, and a file
of fewer than 2 bytes, or of exactly 2, loads nothing. These are 92_eei_decisions.md D21 (log 23). -/
def Obligations.OddImageFilesLoadNothingMore : Prop :=
  (∀ (m : Memory) (file : List Byte) (b : Byte) (n : Nat), file.length = 2 * n →
    imageWords (file ++ [b]) = imageWords file ∧ loadImage m (file ++ [b]) = loadImage m file) ∧
  (∀ (m : Memory) (file : List Byte), file.length ≤ 2 → loadImage m file = m)

/-- The exit status (60_exceptions.md R151): none while RUNNING, 0 for HALTED, the cause's code for FAULTED, and with
admitted parameters 0 for nothing but HALTED. The numbers are 92_eei_decisions.md D22 (log 9). -/
def Obligations.ExitStatusIsZeroOnlyOnHalt : Prop :=
  ∀ s : State, (s.rs = .running → exitStatus s = none) ∧ (s.rs = .halted → exitStatus s = some 0) ∧
    (∀ info, s.rs = .faulted .illegalOpcode info → exitStatus s = some s.cfg.illegalOpcodeCode) ∧
    (∀ info, s.rs = .faulted .unrecognizedTrap info → exitStatus s = some s.cfg.unrecognizedTrapCode) ∧
    (s.cfg.wf → exitStatus s = some 0 → s.rs = .halted)
end

