-- ==== Sys2Proof/Laws/Decode.lean ====
section
/-! SUPPORT. The laws of the opcode map, of the field codes, of the fields of an encoded Word, and of
the Word an instruction was decoded from. -/

namespace Sys2Proof

/-! ### The opcode map -/

theorem Opcode.mem_all (o : Opcode) : o ∈ Opcode.all := by
  cases o <;> decide

theorem OpcodeMap.code_injective {m : OpcodeMap} (hm : m.wf) : Function.Injective m.code := fun a b h =>
  List.inj_on_of_nodup_map hm (Opcode.mem_all a) (Opcode.mem_all b) h

/-- The name found for a value has that value. -/
theorem OpcodeMap.code_of_opcodeAt {m : OpcodeMap} {c : BitVec 4} {o : Opcode} (h : m.opcodeAt c = some o) :
    m.code o = c := by
  simpa using List.find?_some h

/-- Under an admitted map, the name found for the value of an opcode is that opcode. -/
theorem OpcodeMap.opcodeAt_code {m : OpcodeMap} (hm : m.wf) (o : Opcode) : m.opcodeAt (m.code o) = some o := by
  cases h : m.opcodeAt (m.code o) with
  | none =>
    have := List.find?_eq_none.mp h o (Opcode.mem_all o)
    simp at this
  | some o' => rw [OpcodeMap.code_injective hm (OpcodeMap.code_of_opcodeAt h)]

/-- Under an admitted map every 4-bit value has a name: sixteen names with different values use up all sixteen. -/
theorem OpcodeMap.exists_opcodeAt {m : OpcodeMap} (hm : m.wf) (c : BitVec 4) : ∃ o, m.opcodeAt c = some o := by
  have hnd : ((Opcode.all.map m.code).map BitVec.toFin).Nodup :=
    List.Nodup.map (fun a b h => BitVec.toFin_inj.mp h) hm
  have hall : ((Opcode.all.map m.code).map BitVec.toFin).toFinset = Finset.univ :=
    Finset.eq_univ_of_card _ (by rw [List.toFinset_card_of_nodup hnd]; rfl)
  have hc : c.toFin ∈ ((Opcode.all.map m.code).map BitVec.toFin).toFinset := hall ▸ Finset.mem_univ _
  simp only [List.mem_toFinset, List.mem_map, BitVec.toFin_inj] at hc
  obtain ⟨_, ⟨o, -, rfl⟩, rfl⟩ := hc
  exact ⟨o, OpcodeMap.opcodeAt_code hm o⟩

/-- The decoder on a Word whose opcode field is the value of a known opcode. -/
theorem decode_of_fieldOpcode {m : OpcodeMap} (hm : m.wf) {w : Word} {o : Opcode} (h : fieldOpcode w = m.code o) :
    decode m w = .ok (decodeAs o w) := by
  simp [decode, h, OpcodeMap.opcodeAt_code hm]

/-- What the decoder answers, and why. -/
theorem decode_cases {m : OpcodeMap} {w : Word} {i : Instr} (h : decode m w = .ok i) :
    ∃ o, m.opcodeAt (fieldOpcode w) = some o ∧ i = decodeAs o w := by
  unfold decode at h
  split at h
  · next o ho => exact ⟨o, ho, by simpa using h.symm⟩
  · simp at h

/-! ### Field codes -/

@[simp] theorem Reg.ofBits_toBits (r : Reg) : Reg.ofBits r.toBits = r := by
  cases r <;> rfl

@[simp] theorem Reg.toBits_ofBits (b : BitVec 3) : (Reg.ofBits b).toBits = b := by
  revert b
  decide

theorem serviceAt_vector (v : Service) : serviceAt v.vector = some v := by
  cases v <;> decide

/-- The vectors of the TrapTable are 0x20 to 0x25. -/
theorem serviceAt_eq_none_iff (vec8 : BitVec 8) : serviceAt vec8 = none ↔ vec8 < 0x20 ∨ 0x25 < vec8 := by
  revert vec8
  decide

/-! ### Fields of an appended Word -/

theorem extract_left {v w lo len : Nat} (x : BitVec v) (y : BitVec w) (h : w ≤ lo) :
    (x ++ y).extractLsb' lo len = x.extractLsb' (lo - w) len :=
  BitVec.extractLsb'_append_eq_of_le h

theorem extract_right {v w lo len : Nat} (x : BitVec v) (y : BitVec w) (h : lo + len ≤ w) :
    (x ++ y).extractLsb' lo len = y.extractLsb' lo len :=
  BitVec.extractLsb'_append_eq_of_add_le h

theorem extract_all {w : Nat} (x : BitVec w) : x.extractLsb' 0 w = x :=
  BitVec.extractLsb'_eq_self

/-- The opcode field of an encoded Word. -/
theorem fieldOpcode_encode (m : OpcodeMap) (i : Instr) : fieldOpcode (encode m i) = m.code i.opcode := by
  unfold fieldOpcode encode
  rw [extract_left _ _ (by decide)]
  exact extract_all _

/-- A field below bit 12 of an encoded Word is a field of its low 12 bits. -/
theorem extract_encode (m : OpcodeMap) (i : Instr) (lo len : Nat) (h : lo + len ≤ 12) :
    (encode m i).extractLsb' lo len = i.low12.extractLsb' lo len :=
  extract_right _ _ h

theorem getLsbD_encode (m : OpcodeMap) (i : Instr) (k : Nat) (h : k < 12) :
    (encode m i).getLsbD k = i.low12.getLsbD k := by
  unfold encode
  rw [BitVec.getLsbD_append]
  simp [h]

/-! ### The fields of an encoded Word, by format (30_encoding.md R53)

The hypothesis of each lemma says how the low 12 bits are put together; for an instruction of the format it is `rfl`. -/

section Formats

variable {m : OpcodeMap} (i : Instr)

theorem fieldReg11_encode (a : Reg) (x : BitVec 9) (h : i.low12 = a.toBits ++ x) : fieldReg11 (encode m i) = a := by
  rw [fieldReg11, extract_encode m i 9 3 (by decide), h, extract_left a.toBits x (by decide), extract_all,
    Reg.ofBits_toBits]

theorem fieldReg8_encode (a : BitVec 3) (b : Reg) (x : BitVec 6) (h : i.low12 = a ++ (b.toBits ++ x)) :
    fieldReg8 (encode m i) = b := by
  rw [fieldReg8, extract_encode m i 6 3 (by decide), h, extract_right a (b.toBits ++ x) (by decide),
    extract_left b.toBits x (by decide), extract_all, Reg.ofBits_toBits]

theorem extract_low6_encode (a b : BitVec 3) (x : BitVec 6) (h : i.low12 = a ++ (b ++ x)) (len : Nat) (hl : len ≤ 6) :
    (encode m i).extractLsb' 0 len = x.extractLsb' 0 len := by
  rw [extract_encode m i 0 len (by omega), h, extract_right a (b ++ x) (by omega), extract_right b x (by omega)]

theorem bit5_encode (a b : BitVec 3) (x : BitVec 6) (h : i.low12 = a ++ (b ++ x)) :
    (encode m i).getLsbD 5 = x.getLsbD 5 := by
  rw [getLsbD_encode m i 5 (by decide), h, BitVec.getLsbD_append, if_pos (by decide), BitVec.getLsbD_append,
    if_pos (by decide)]

theorem fieldReg2_encode (a b : BitVec 3) (c : Reg) (h : i.low12 = a ++ (b ++ (0b000#3 ++ c.toBits))) :
    fieldReg2 (encode m i) = c := by
  rw [fieldReg2, extract_low6_encode i a b (0b000#3 ++ c.toBits) h 3 (by decide),
    extract_right 0b000#3 c.toBits (by decide), extract_all, Reg.ofBits_toBits]

theorem bit5_of_register (a b : BitVec 3) (c : Reg) (h : i.low12 = a ++ (b ++ (0b000#3 ++ c.toBits))) :
    (encode m i).getLsbD 5 = false := by
  rw [bit5_encode i a b (0b000#3 ++ c.toBits) h, BitVec.getLsbD_append, if_neg (by decide)]
  rfl

theorem fieldImm5_encode (a b : BitVec 3) (imm5 : BitVec 5) (h : i.low12 = a ++ (b ++ (1#1 ++ imm5))) :
    fieldImm5 (encode m i) = imm5 := by
  rw [fieldImm5, extract_low6_encode i a b (1#1 ++ imm5) h 5 (by decide), extract_right 1#1 imm5 (by decide), extract_all]

theorem bit5_of_immediate (a b : BitVec 3) (imm5 : BitVec 5) (h : i.low12 = a ++ (b ++ (1#1 ++ imm5))) :
    (encode m i).getLsbD 5 = true := by
  rw [bit5_encode i a b (1#1 ++ imm5) h, BitVec.getLsbD_append, if_neg (by decide)]
  rfl

theorem fieldOff6_encode (a b : BitVec 3) (off6 : BitVec 6) (h : i.low12 = a ++ (b ++ off6)) :
    fieldOff6 (encode m i) = off6 :=
  (extract_low6_encode i a b off6 h 6 (by decide)).trans (extract_all off6)

theorem fieldOff9_encode (a : BitVec 3) (off9 : BitVec 9) (h : i.low12 = a ++ off9) : fieldOff9 (encode m i) = off9 := by
  rw [fieldOff9, extract_encode m i 0 9 (by decide), h, extract_right a off9 (by decide), extract_all]

theorem getLsbD_high_encode (a : BitVec 3) (x : BitVec 9) (h : i.low12 = a ++ x) (k : Nat) (h9 : 9 ≤ k) (h12 : k < 12) :
    (encode m i).getLsbD k = a.getLsbD (k - 9) := by
  rw [getLsbD_encode m i k h12, h, BitVec.getLsbD_append, if_neg (by omega)]

theorem fieldOff11_encode (off11 : BitVec 11) (h : i.low12 = 1#1 ++ off11) : fieldOff11 (encode m i) = off11 := by
  rw [fieldOff11, extract_encode m i 0 11 (by decide), h, extract_right 1#1 off11 (by decide), extract_all]

theorem bit11_of_jsr (off11 : BitVec 11) (h : i.low12 = 1#1 ++ off11) : (encode m i).getLsbD 11 = true := by
  rw [getLsbD_encode m i 11 (by decide), h, BitVec.getLsbD_append, if_neg (by decide)]
  rfl

theorem fieldVec8_encode (u : BitVec 4) (v : BitVec 8) (h : i.low12 = u ++ v) : fieldVec8 (encode m i) = v := by
  rw [fieldVec8, extract_encode m i 0 8 (by decide), h, extract_right u v (by decide), extract_all]

theorem fieldTrapUnread_encode (u : BitVec 4) (v : BitVec 8) (h : i.low12 = u ++ v) :
    fieldTrapUnread (encode m i) = u := by
  rw [fieldTrapUnread, extract_encode m i 8 4 (by decide), h, extract_left u v (by decide), extract_all]

theorem fieldUnread12_encode (u : BitVec 12) (h : i.low12 = u) : fieldUnread12 (encode m i) = u := by
  rw [fieldUnread12, extract_encode m i 0 12 (by decide), h, extract_all]

end Formats

/-! ### What a decoded instruction says of its Word -/

/-- Two Words that agree on a mask agree on every bit of it. -/
theorem getLsbD_of_mask {w w' mask : Word} (h : w' &&& mask = w &&& mask) (k : Nat) (hk : mask.getLsbD k = true) :
    w'.getLsbD k = w.getLsbD k := by
  have := congrArg (fun x => x.getLsbD k) h
  simpa [hk] using this

/-- Two Words that agree on a mask agree on every field that lies in it. -/
theorem extract_of_mask {w w' mask : Word} (h : w' &&& mask = w &&& mask) (lo len : Nat)
    (hk : ∀ k, k < len → mask.getLsbD (lo + k) = true) : w'.extractLsb' lo len = w.extractLsb' lo len := by
  ext k hk'
  have := getLsbD_of_mask h (lo + k) (hk k hk')
  simpa [BitVec.getLsbD_eq_getElem] using this

/-- The opcode is among the bits that decide every instruction. -/
theorem readMask_opcode (i : Instr) (k : Nat) (h : k < 4) : i.readMask.getLsbD (12 + k) = true := by
  have : k = 0 ∨ k = 1 ∨ k = 2 ∨ k = 3 := by omega
  cases i <;> rcases this with rfl | rfl | rfl | rfl <;> (simp only [Instr.readMask]; decide)

/-- A Word is its opcode field and the rest. -/
theorem fieldOpcode_append (w : Word) : (fieldOpcode w ++ w.extractLsb' 0 12 : BitVec 16) = w := by
  show (w.extractLsb' 12 4 ++ w.extractLsb' 0 12 : BitVec 16) = w
  rw [BitVec.extractLsb'_append_extractLsb'_eq_extractLsb' (by decide)]
  exact extract_all w

/-- A Word that decodes to TRAP is that instruction's own Word, and its vector has no routine. -/
theorem encode_of_decode_trap {m : OpcodeMap} {w : Word} {u : BitVec 4} {v : BitVec 8}
    (h : decode m w = .ok (.trap u v)) : encode m (.trap u v) = w ∧ serviceAt v = none := by
  obtain ⟨o, ho, hi⟩ := decode_cases h
  have hc := OpcodeMap.code_of_opcodeAt ho
  have : o = .trap ∧ serviceAt v = none ∧ v = fieldVec8 w ∧ u = fieldTrapUnread w := by
    cases o <;> simp only [decodeAs] at hi <;> (try split at hi) <;> (try cases hi)
    · next x _ => cases x <;> cases hi
    · next hn => exact ⟨rfl, hn, rfl, rfl⟩
  obtain ⟨rfl, hn, rfl, rfl⟩ := this
  refine ⟨?_, hn⟩
  have h12 : (fieldTrapUnread w ++ fieldVec8 w : BitVec 12) = w.extractLsb' 0 12 := by
    show (w.extractLsb' 8 4 ++ w.extractLsb' 0 8 : BitVec 12) = _
    rw [BitVec.extractLsb'_append_extractLsb'_eq_extractLsb' (by decide)]
  show (m.code .trap ++ (fieldTrapUnread w ++ fieldVec8 w : BitVec 12) : BitVec 16) = w
  rw [h12, hc]
  exact fieldOpcode_append w

/-- A Word that decodes to RTI or RES is that instruction's own Word. -/
theorem encode_of_decode_unassigned {m : OpcodeMap} {w : Word} {i : Instr} {u : BitVec 12}
    (h : decode m w = .ok i) (hu : i = .rti u ∨ i = .res u) : encode m i = w := by
  obtain ⟨o, ho, hi⟩ := decode_cases h
  have hc := OpcodeMap.code_of_opcodeAt ho
  have : (o = .rti ∨ o = .res) ∧ u = fieldUnread12 w := by
    rcases hu with rfl | rfl <;> cases o <;> simp only [decodeAs] at hi <;> (try split at hi) <;> (try cases hi)
    all_goals first | exact ⟨by simp, rfl⟩ | (next x _ => cases x <;> cases hi)
  obtain ⟨rfl | rfl, -⟩ := this
  · rw [hi]
    show (m.code .rti ++ fieldUnread12 w : BitVec 16) = w
    rw [hc]
    exact fieldOpcode_append w
  · rw [hi]
    show (m.code .res ++ fieldUnread12 w : BitVec 16) = w
    rw [hc]
    exact fieldOpcode_append w

end Sys2Proof
end

