-- ==== Sys2Proof/Laws/Memory.lean ====
section
/-! SUPPORT. The laws of the memory: a read after a write, and the canonical form, which every operation keeps. -/

namespace Sys2Proof.Machine

/-- The Word of the first cell at a key, for any list. -/
theorem Memory.find?_insertCell (c : MemCell) (m : Memory) (k : Nat) (h : ∀ d ∈ m, d.1 ≠ c.1) :
    (Memory.insertCell c m).find? (fun d => d.1 == k) =
      if c.1 = k then some c else m.find? (fun d => d.1 == k) := by
  induction m with
  | nil => by_cases hk : c.1 = k <;> simp [Memory.insertCell, hk]
  | cons d m ih =>
    have hd : d.1 ≠ c.1 := h d (by simp)
    have ih := ih fun e he => h e (by simp [he])
    by_cases hlt : c.1 < d.1
    · rw [Memory.insertCell, if_pos hlt]
      by_cases hk : c.1 = k <;> simp [hk]
    · rw [Memory.insertCell, if_neg hlt]
      by_cases hk : d.1 = k
      · have : c.1 ≠ k := fun e => hd (hk.trans e.symm)
        simp [hk, this]
      · simp [hk, ih]

theorem Memory.find?_erase (m : Memory) (a k : Nat) :
    (m.filter fun c => c.1 != a).find? (fun c => c.1 == k) =
      if k = a then none else m.find? (fun c => c.1 == k) := by
  induction m with
  | nil => simp
  | cons d m ih =>
    by_cases hd : d.1 = a
    · by_cases hk : k = a
      · simp [hk] at ih ⊢
      · have : d.1 ≠ k := fun e => hk (e.symm.trans hd)
        simp [hd, hk, ih, Ne.symm hk]
    · by_cases hk : d.1 = k
      · have : k ≠ a := fun e => hd (hk.trans e)
        simp [hk, this]
      · simp [hd, hk, ih]

/-- A read after a write gives the Word written at its address, and what was there before at every other. -/
theorem Memory.read_write (m : Memory) (a v b : Word) :
    (m.write a v).read b = if b = a then v else m.read b := by
  have hkeys : ∀ d ∈ m.filter (fun c => c.1 != a.toNat), d.1 ≠ a.toNat := by simp
  have hab : b = a ↔ b.toNat = a.toNat := BitVec.toNat_inj.symm
  unfold Memory.write Memory.read
  by_cases hv : v = Memory.unlisted
  · rw [if_pos hv, Memory.find?_erase]
    by_cases h : b = a
    · simp [h, hv]
    · simp [h, mt hab.mpr h]
  · rw [if_neg hv, Memory.find?_insertCell _ _ _ hkeys, Memory.find?_erase]
    by_cases h : b = a
    · simp [h]
    · have h' : b.toNat ≠ a.toNat := mt hab.mpr h
      simp [h, h', Ne.symm h']

theorem Memory.read_write_self (m : Memory) (a v : Word) : (m.write a v).read a = v := by
  simp [Memory.read_write]

theorem Memory.read_write_of_ne (m : Memory) {a b : Word} (v : Word) (h : b ≠ a) :
    (m.write a v).read b = m.read b := by
  simp [Memory.read_write, h]

theorem Memory.mem_insertCell {c d : MemCell} {m : Memory} : d ∈ Memory.insertCell c m ↔ d = c ∨ d ∈ m := by
  induction m with
  | nil => simp [Memory.insertCell]
  | cons e m ih =>
    by_cases h : c.1 < e.1
    · simp [Memory.insertCell, h]
    · simp only [Memory.insertCell, if_neg h, List.mem_cons, ih]
      tauto

theorem Memory.wf_insertCell {c : MemCell} {m : Memory} (hm : m.wf) (hc : c.1 < 65536 ∧ c.2 ≠ Memory.unlisted)
    (hkeys : ∀ d ∈ m, d.1 ≠ c.1) : (Memory.insertCell c m).wf := by
  refine ⟨?_, fun d hd => ?_⟩
  · obtain ⟨hs, -⟩ := hm
    induction m with
    | nil => simp [Memory.insertCell]
    | cons e m ih =>
      obtain ⟨he, hs⟩ := List.pairwise_cons.mp hs
      by_cases h : c.1 < e.1
      · simp only [Memory.insertCell, if_pos h, List.pairwise_cons, List.mem_cons]
        refine ⟨?_, he, hs⟩
        rintro d (rfl | hd)
        · exact h
        · exact h.trans (he d hd)
      · simp only [Memory.insertCell, if_neg h, List.pairwise_cons]
        refine ⟨fun d hd => ?_, ih (fun d hd => hkeys d (by simp [hd])) hs⟩
        rcases Memory.mem_insertCell.mp hd with rfl | hd
        · have := hkeys e (by simp)
          omega
        · exact he d hd
  · rcases Memory.mem_insertCell.mp hd with rfl | hd
    · exact hc
    · exact hm.2 d hd

theorem Memory.wf_erase {m : Memory} (hm : m.wf) (a : Nat) : Memory.wf (m.filter fun c => c.1 != a) :=
  ⟨hm.1.filter _, fun c hc => hm.2 c (List.mem_of_mem_filter hc)⟩

/-- A write keeps the canonical form. -/
theorem Memory.wf_write {m : Memory} (hm : m.wf) (a v : Word) : (m.write a v).wf := by
  unfold Memory.write
  split
  · exact Memory.wf_erase hm _
  · exact Memory.wf_insertCell (Memory.wf_erase hm _) ⟨a.isLt, ‹_›⟩ (by simp)

/-- Loading data words keeps the canonical form. -/
theorem Memory.wf_loadWords {m : Memory} (hm : m.wf) (a : Nat) (ds : List Word) : (loadWords m a ds).wf := by
  induction ds generalizing m a with
  | nil => exact hm
  | cons d ds ih =>
    unfold loadWords
    split
    · exact ih (Memory.wf_write hm _ _) _
    · exact hm

/-- Loading an image keeps the canonical form. -/
theorem Memory.wf_loadImage {m : Memory} (hm : m.wf) (file : List Byte) : (loadImage m file).wf := by
  unfold loadImage
  split
  · exact Memory.wf_loadWords hm _ _
  · exact hm

/-- Reset memory is in the canonical form. -/
theorem Memory.wf_reset : State.reset.mem.wf := by decide

end Sys2Proof.Machine
end

