-- ==== Sys2Proof/Laws/State.lean ====
section
/-! SUPPORT. One lemma per field per update of the state, so that no later proof unfolds a record update; and how a
register or a memory word reads after each update. -/

namespace Sys2Proof.Machine

variable (s : State)

/-! ### Registers -/

theorem Regs.get_set (g : Regs) (r q : Reg) (v : Word) : (g.set r v).get q = if q = r then v else g.get q := by
  cases r <;> cases q <;> rfl

/-! ### Fields -/

@[simp] theorem State.setReg_regs (r : Reg) (v : Word) : (s.setReg r v).regs = s.regs.set r v := rfl
@[simp] theorem State.setReg_pc (r : Reg) (v : Word) : (s.setReg r v).pc = s.pc := rfl
@[simp] theorem State.setReg_cond (r : Reg) (v : Word) : (s.setReg r v).cond = s.cond := rfl
@[simp] theorem State.setReg_mem (r : Reg) (v : Word) : (s.setReg r v).mem = s.mem := rfl
@[simp] theorem State.setReg_rs (r : Reg) (v : Word) : (s.setReg r v).rs = s.rs := rfl
@[simp] theorem State.setReg_ts (r : Reg) (v : Word) : (s.setReg r v).ts = s.ts := rfl
@[simp] theorem State.setReg_input (r : Reg) (v : Word) : (s.setReg r v).input = s.input := rfl
@[simp] theorem State.setReg_output (r : Reg) (v : Word) : (s.setReg r v).output = s.output := rfl
@[simp] theorem State.setReg_arrivals (r : Reg) (v : Word) : (s.setReg r v).arrivals = s.arrivals := rfl
@[simp] theorem State.setReg_cfg (r : Reg) (v : Word) : (s.setReg r v).cfg = s.cfg := rfl

@[simp] theorem State.setPc_regs (v : Word) : (s.setPc v).regs = s.regs := rfl
@[simp] theorem State.setPc_pc (v : Word) : (s.setPc v).pc = v := rfl
@[simp] theorem State.setPc_cond (v : Word) : (s.setPc v).cond = s.cond := rfl
@[simp] theorem State.setPc_mem (v : Word) : (s.setPc v).mem = s.mem := rfl
@[simp] theorem State.setPc_rs (v : Word) : (s.setPc v).rs = s.rs := rfl
@[simp] theorem State.setPc_ts (v : Word) : (s.setPc v).ts = s.ts := rfl
@[simp] theorem State.setPc_input (v : Word) : (s.setPc v).input = s.input := rfl
@[simp] theorem State.setPc_output (v : Word) : (s.setPc v).output = s.output := rfl
@[simp] theorem State.setPc_arrivals (v : Word) : (s.setPc v).arrivals = s.arrivals := rfl
@[simp] theorem State.setPc_cfg (v : Word) : (s.setPc v).cfg = s.cfg := rfl

@[simp] theorem State.setCond_regs (c : Cond) : (s.setCond c).regs = s.regs := rfl
@[simp] theorem State.setCond_pc (c : Cond) : (s.setCond c).pc = s.pc := rfl
@[simp] theorem State.setCond_cond (c : Cond) : (s.setCond c).cond = c := rfl
@[simp] theorem State.setCond_mem (c : Cond) : (s.setCond c).mem = s.mem := rfl
@[simp] theorem State.setCond_rs (c : Cond) : (s.setCond c).rs = s.rs := rfl
@[simp] theorem State.setCond_ts (c : Cond) : (s.setCond c).ts = s.ts := rfl
@[simp] theorem State.setCond_input (c : Cond) : (s.setCond c).input = s.input := rfl
@[simp] theorem State.setCond_output (c : Cond) : (s.setCond c).output = s.output := rfl
@[simp] theorem State.setCond_arrivals (c : Cond) : (s.setCond c).arrivals = s.arrivals := rfl
@[simp] theorem State.setCond_cfg (c : Cond) : (s.setCond c).cfg = s.cfg := rfl

@[simp] theorem State.setRs_regs (r : RunState) : (s.setRs r).regs = s.regs := rfl
@[simp] theorem State.setRs_pc (r : RunState) : (s.setRs r).pc = s.pc := rfl
@[simp] theorem State.setRs_cond (r : RunState) : (s.setRs r).cond = s.cond := rfl
@[simp] theorem State.setRs_mem (r : RunState) : (s.setRs r).mem = s.mem := rfl
@[simp] theorem State.setRs_rs (r : RunState) : (s.setRs r).rs = r := rfl
@[simp] theorem State.setRs_ts (r : RunState) : (s.setRs r).ts = s.ts := rfl
@[simp] theorem State.setRs_input (r : RunState) : (s.setRs r).input = s.input := rfl
@[simp] theorem State.setRs_output (r : RunState) : (s.setRs r).output = s.output := rfl
@[simp] theorem State.setRs_arrivals (r : RunState) : (s.setRs r).arrivals = s.arrivals := rfl
@[simp] theorem State.setRs_cfg (r : RunState) : (s.setRs r).cfg = s.cfg := rfl

@[simp] theorem State.setTs_regs (p : TrapPhase) : (s.setTs p).regs = s.regs := rfl
@[simp] theorem State.setTs_pc (p : TrapPhase) : (s.setTs p).pc = s.pc := rfl
@[simp] theorem State.setTs_cond (p : TrapPhase) : (s.setTs p).cond = s.cond := rfl
@[simp] theorem State.setTs_mem (p : TrapPhase) : (s.setTs p).mem = s.mem := rfl
@[simp] theorem State.setTs_rs (p : TrapPhase) : (s.setTs p).rs = s.rs := rfl
@[simp] theorem State.setTs_ts (p : TrapPhase) : (s.setTs p).ts = p := rfl
@[simp] theorem State.setTs_input (p : TrapPhase) : (s.setTs p).input = s.input := rfl
@[simp] theorem State.setTs_output (p : TrapPhase) : (s.setTs p).output = s.output := rfl
@[simp] theorem State.setTs_arrivals (p : TrapPhase) : (s.setTs p).arrivals = s.arrivals := rfl
@[simp] theorem State.setTs_cfg (p : TrapPhase) : (s.setTs p).cfg = s.cfg := rfl

@[simp] theorem State.poke_regs (a v : Word) : (s.poke a v).regs = s.regs := rfl
@[simp] theorem State.poke_pc (a v : Word) : (s.poke a v).pc = s.pc := rfl
@[simp] theorem State.poke_cond (a v : Word) : (s.poke a v).cond = s.cond := rfl
@[simp] theorem State.poke_mem (a v : Word) : (s.poke a v).mem = s.mem.write a v := rfl
@[simp] theorem State.poke_rs (a v : Word) : (s.poke a v).rs = s.rs := rfl
@[simp] theorem State.poke_ts (a v : Word) : (s.poke a v).ts = s.ts := rfl
@[simp] theorem State.poke_input (a v : Word) : (s.poke a v).input = s.input := rfl
@[simp] theorem State.poke_output (a v : Word) : (s.poke a v).output = s.output := rfl
@[simp] theorem State.poke_arrivals (a v : Word) : (s.poke a v).arrivals = s.arrivals := rfl
@[simp] theorem State.poke_cfg (a v : Word) : (s.poke a v).cfg = s.cfg := rfl

@[simp] theorem State.setInput_regs (l : List Byte) : (s.setInput l).regs = s.regs := rfl
@[simp] theorem State.setInput_pc (l : List Byte) : (s.setInput l).pc = s.pc := rfl
@[simp] theorem State.setInput_cond (l : List Byte) : (s.setInput l).cond = s.cond := rfl
@[simp] theorem State.setInput_mem (l : List Byte) : (s.setInput l).mem = s.mem := rfl
@[simp] theorem State.setInput_rs (l : List Byte) : (s.setInput l).rs = s.rs := rfl
@[simp] theorem State.setInput_ts (l : List Byte) : (s.setInput l).ts = s.ts := rfl
@[simp] theorem State.setInput_input (l : List Byte) : (s.setInput l).input = l := rfl
@[simp] theorem State.setInput_output (l : List Byte) : (s.setInput l).output = s.output := rfl
@[simp] theorem State.setInput_arrivals (l : List Byte) : (s.setInput l).arrivals = s.arrivals := rfl
@[simp] theorem State.setInput_cfg (l : List Byte) : (s.setInput l).cfg = s.cfg := rfl

@[simp] theorem State.emit_regs (l : List Byte) : (s.emit l).regs = s.regs := rfl
@[simp] theorem State.emit_pc (l : List Byte) : (s.emit l).pc = s.pc := rfl
@[simp] theorem State.emit_cond (l : List Byte) : (s.emit l).cond = s.cond := rfl
@[simp] theorem State.emit_mem (l : List Byte) : (s.emit l).mem = s.mem := rfl
@[simp] theorem State.emit_rs (l : List Byte) : (s.emit l).rs = s.rs := rfl
@[simp] theorem State.emit_ts (l : List Byte) : (s.emit l).ts = s.ts := rfl
@[simp] theorem State.emit_input (l : List Byte) : (s.emit l).input = s.input := rfl
@[simp] theorem State.emit_output (l : List Byte) : (s.emit l).output = s.output ++ l := rfl
@[simp] theorem State.emit_arrivals (l : List Byte) : (s.emit l).arrivals = s.arrivals := rfl
@[simp] theorem State.emit_cfg (l : List Byte) : (s.emit l).cfg = s.cfg := rfl

/-! ### Registers and memory words -/

@[simp] theorem State.setReg_peek (r : Reg) (v : Word) (x : Word) : (s.setReg r v).peek x = s.peek x := rfl
@[simp] theorem State.setPc_reg (v : Word) (q : Reg) : (s.setPc v).reg q = s.reg q := rfl
@[simp] theorem State.setPc_peek (v : Word) (x : Word) : (s.setPc v).peek x = s.peek x := rfl
@[simp] theorem State.setCond_reg (c : Cond) (q : Reg) : (s.setCond c).reg q = s.reg q := rfl
@[simp] theorem State.setCond_peek (c : Cond) (x : Word) : (s.setCond c).peek x = s.peek x := rfl
@[simp] theorem State.setRs_reg (r : RunState) (q : Reg) : (s.setRs r).reg q = s.reg q := rfl
@[simp] theorem State.setRs_peek (r : RunState) (x : Word) : (s.setRs r).peek x = s.peek x := rfl
@[simp] theorem State.setTs_reg (p : TrapPhase) (q : Reg) : (s.setTs p).reg q = s.reg q := rfl
@[simp] theorem State.setTs_peek (p : TrapPhase) (x : Word) : (s.setTs p).peek x = s.peek x := rfl
@[simp] theorem State.poke_reg (a v : Word) (q : Reg) : (s.poke a v).reg q = s.reg q := rfl
@[simp] theorem State.setInput_reg (l : List Byte) (q : Reg) : (s.setInput l).reg q = s.reg q := rfl
@[simp] theorem State.setInput_peek (l : List Byte) (x : Word) : (s.setInput l).peek x = s.peek x := rfl
@[simp] theorem State.emit_reg (l : List Byte) (q : Reg) : (s.emit l).reg q = s.reg q := rfl
@[simp] theorem State.emit_peek (l : List Byte) (x : Word) : (s.emit l).peek x = s.peek x := rfl

theorem State.setReg_reg (r q : Reg) (v : Word) : (s.setReg r v).reg q = if q = r then v else s.reg q :=
  Regs.get_set s.regs r q v

@[simp] theorem State.setReg_reg_self (r : Reg) (v : Word) : (s.setReg r v).reg r = v := by
  simp [State.setReg_reg]

theorem State.setReg_reg_of_ne {r q : Reg} (h : q ≠ r) (v : Word) : (s.setReg r v).reg q = s.reg q := by
  simp [State.setReg_reg, h]

end Sys2Proof.Machine
end

