-- ==== Sys2Proof/Laws/Ops.lean ====
section
/-! SUPPORT. What each shared operation can do, said once. -/

namespace Sys2Proof.Machine

variable (s : State) (a v x : Word)

/-! ### Memory words -/

theorem State.poke_peek : (s.poke a v).peek x = if x = a then v else s.peek x :=
  Memory.read_write s.mem a v x

@[simp] theorem State.poke_peek_self : (s.poke a v).peek a = v :=
  Memory.read_write_self s.mem a v

theorem State.poke_peek_of_ne {a x : Word} (h : x ≠ a) : (s.poke a v).peek x = s.peek x :=
  Memory.read_write_of_ne s.mem v h

/-! ### The keyboard poll and the bus read -/

/-- The poll with a byte pending. -/
theorem keyboardPoll_cons {s : State} {b : Byte} {rest : List Byte} (h : s.input = b :: rest) :
    keyboardPoll s = ((s.setInput rest).poke s.cfg.kbsrAddr 0x8000).poke s.cfg.kbdrAddr (zext b) := by
  simp [keyboardPoll, h]

/-- The poll with no byte pending. -/
theorem keyboardPoll_nil {s : State} (h : s.input = []) : keyboardPoll s = s.poke s.cfg.kbsrAddr 0x0000 := by
  simp [keyboardPoll, h]

@[simp] theorem keyboardPoll_regs : (keyboardPoll s).regs = s.regs := by
  unfold keyboardPoll
  split <;> rfl

@[simp] theorem keyboardPoll_pc : (keyboardPoll s).pc = s.pc := by
  unfold keyboardPoll
  split <;> rfl

@[simp] theorem keyboardPoll_cond : (keyboardPoll s).cond = s.cond := by
  unfold keyboardPoll
  split <;> rfl

@[simp] theorem keyboardPoll_rs : (keyboardPoll s).rs = s.rs := by
  unfold keyboardPoll
  split <;> rfl

@[simp] theorem keyboardPoll_ts : (keyboardPoll s).ts = s.ts := by
  unfold keyboardPoll
  split <;> rfl

@[simp] theorem keyboardPoll_output : (keyboardPoll s).output = s.output := by
  unfold keyboardPoll
  split <;> rfl

@[simp] theorem keyboardPoll_arrivals : (keyboardPoll s).arrivals = s.arrivals := by
  unfold keyboardPoll
  split <;> rfl

@[simp] theorem keyboardPoll_cfg : (keyboardPoll s).cfg = s.cfg := by
  unfold keyboardPoll
  split <;> rfl

/-- The poll removes at most the oldest byte. -/
theorem keyboardPoll_input : (keyboardPoll s).input = s.input.tail := by
  cases h : s.input with
  | nil => simp [keyboardPoll_nil h, h]
  | cons b rest => simp [keyboardPoll_cons h]

theorem keyboardPoll_mem_wf {s : State} (h : s.mem.wf) : (keyboardPoll s).mem.wf := by
  cases hi : s.input with
  | nil =>
    rw [keyboardPoll_nil hi, State.poke_mem]
    exact Memory.wf_write h _ _
  | cons b rest =>
    rw [keyboardPoll_cons hi, State.poke_mem, State.poke_mem, State.setInput_mem]
    exact Memory.wf_write (Memory.wf_write h _ _) _ _

theorem pollIfStatus_of_eq {a : Word} {s : State} (h : a = s.cfg.kbsrAddr) : pollIfStatus a s = keyboardPoll s :=
  if_pos h

theorem pollIfStatus_of_ne {a : Word} {s : State} (h : a ≠ s.cfg.kbsrAddr) : pollIfStatus a s = s :=
  if_neg h

@[simp] theorem pollIfStatus_regs : (pollIfStatus a s).regs = s.regs := by
  unfold pollIfStatus
  split <;> simp

@[simp] theorem pollIfStatus_pc : (pollIfStatus a s).pc = s.pc := by
  unfold pollIfStatus
  split <;> simp

@[simp] theorem pollIfStatus_cond : (pollIfStatus a s).cond = s.cond := by
  unfold pollIfStatus
  split <;> simp

@[simp] theorem pollIfStatus_rs : (pollIfStatus a s).rs = s.rs := by
  unfold pollIfStatus
  split <;> simp

@[simp] theorem pollIfStatus_ts : (pollIfStatus a s).ts = s.ts := by
  unfold pollIfStatus
  split <;> simp

@[simp] theorem pollIfStatus_output : (pollIfStatus a s).output = s.output := by
  unfold pollIfStatus
  split <;> simp

@[simp] theorem pollIfStatus_arrivals : (pollIfStatus a s).arrivals = s.arrivals := by
  unfold pollIfStatus
  split <;> simp

@[simp] theorem pollIfStatus_cfg : (pollIfStatus a s).cfg = s.cfg := by
  unfold pollIfStatus
  split <;> simp

@[simp] theorem pollIfStatus_reg (r : Reg) : (pollIfStatus a s).reg r = s.reg r := by
  simp [State.reg]

/-- A bus read takes at most the oldest byte. -/
theorem pollIfStatus_input : (pollIfStatus a s).input = if a = s.cfg.kbsrAddr then s.input.tail else s.input := by
  unfold pollIfStatus
  split <;> simp [keyboardPoll_input]

theorem pollIfStatus_mem_wf {s : State} (h : s.mem.wf) : (pollIfStatus a s).mem.wf := by
  unfold pollIfStatus
  split
  · exact keyboardPoll_mem_wf h
  · exact h

@[simp] theorem memRead_fst : (memRead a s).1 = (pollIfStatus a s).peek a := rfl

@[simp] theorem memRead_snd : (memRead a s).2 = pollIfStatus a s := rfl

/-! ### The fetch -/

@[simp] theorem fetch_fst : (fetch s).1 = (pollIfStatus s.pc s).peek s.pc := rfl

@[simp] theorem fetch_snd : (fetch s).2 = (pollIfStatus s.pc s).setPc (s.pc + 1) := rfl

/-! ### The result of an instruction -/

@[simp] theorem writeResult_reg_self (dr : Reg) : (writeResult dr v s).reg dr = v := by
  simp [writeResult, setcc]

theorem writeResult_reg_of_ne {dr q : Reg} (h : q ≠ dr) : (writeResult dr v s).reg q = s.reg q := by
  simp [writeResult, setcc, State.setReg_reg_of_ne s h]

@[simp] theorem writeResult_cond (dr : Reg) : (writeResult dr v s).cond = condOf v := rfl

@[simp] theorem writeResult_peek (dr : Reg) : (writeResult dr v s).peek x = s.peek x := rfl

@[simp] theorem writeResult_pc (dr : Reg) : (writeResult dr v s).pc = s.pc := rfl

@[simp] theorem writeResult_mem (dr : Reg) : (writeResult dr v s).mem = s.mem := rfl

@[simp] theorem writeResult_rs (dr : Reg) : (writeResult dr v s).rs = s.rs := rfl

@[simp] theorem writeResult_ts (dr : Reg) : (writeResult dr v s).ts = s.ts := rfl

@[simp] theorem writeResult_input (dr : Reg) : (writeResult dr v s).input = s.input := rfl

@[simp] theorem writeResult_output (dr : Reg) : (writeResult dr v s).output = s.output := rfl

@[simp] theorem writeResult_arrivals (dr : Reg) : (writeResult dr v s).arrivals = s.arrivals := rfl

@[simp] theorem writeResult_cfg (dr : Reg) : (writeResult dr v s).cfg = s.cfg := rfl

/-! ### The flags, by the number of the Word -/

theorem getLsbD_15 (v : Word) : v.getLsbD 15 = decide (0x8000 ≤ v.toNat) := by
  have h : v.msb = v.getLsbD 15 := by simp [BitVec.msb_eq_getLsbD_last]
  rw [← h, BitVec.msb_eq_decide]

theorem condOf_eq_neg {v : Word} (h : 0x8000 ≤ v.toNat) : condOf v = .neg := by
  simp [condOf, getLsbD_15, h]

theorem condOf_eq_zero {v : Word} (h : v.toNat = 0) : condOf v = .zero := by
  have h0 : v = 0 := BitVec.eq_of_toNat_eq h
  subst h0
  decide

theorem condOf_eq_pos {v : Word} (h : 1 ≤ v.toNat) (h' : v.toNat ≤ 0x7FFF) : condOf v = .pos := by
  have h0 : v ≠ 0 := by
    rintro rfl
    simp at h
  have hn : ¬ 0x8000 ≤ v.toNat := by omega
  unfold condOf
  rw [getLsbD_15, decide_eq_false hn, if_neg Bool.false_ne_true, if_neg h0]

/-! ### The host's bytes landing -/

@[simp] theorem State.land_regs : s.land.regs = s.regs := by
  unfold State.land
  split <;> rfl

@[simp] theorem State.land_pc : s.land.pc = s.pc := by
  unfold State.land
  split <;> rfl

@[simp] theorem State.land_cond : s.land.cond = s.cond := by
  unfold State.land
  split <;> rfl

@[simp] theorem State.land_mem : s.land.mem = s.mem := by
  unfold State.land
  split <;> rfl

@[simp] theorem State.land_rs : s.land.rs = s.rs := by
  unfold State.land
  split <;> rfl

@[simp] theorem State.land_ts : s.land.ts = s.ts := by
  unfold State.land
  split <;> rfl

@[simp] theorem State.land_output : s.land.output = s.output := by
  unfold State.land
  split <;> rfl

@[simp] theorem State.land_cfg : s.land.cfg = s.cfg := by
  unfold State.land
  split <;> rfl

@[simp] theorem State.land_reg (r : Reg) : s.land.reg r = s.reg r := by
  simp [State.reg]

@[simp] theorem State.land_peek : s.land.peek x = s.peek x := by
  simp [State.peek]

/-- Landing moves bytes from what is to come to what is pending, and keeps them all in order. -/
theorem State.land_bytes : s.land.input ++ s.land.arrivals.flatten = s.input ++ s.arrivals.flatten := by
  unfold State.land
  split
  · rfl
  · next h => simp [h]

end Sys2Proof.Machine
end

