-- ==== Sys2Proof/Laws/PerInstr.lean ====
section
/-! SUPPORT. Two facts about the instruction as syntax, each proved for every constructor: the opcode field of its
encoded Word, and that reading the fields of its encoded Word gives it back. -/

namespace Sys2Proof.Laws

open Sys2Proof

/-! ### EncodedOpcode: bits [15:12] of the encoded Word are the map's value of the instruction's opcode -/

/-- The family's statement. -/
def EncodedOpcode.Statement (i : Instr) : Prop :=
  ∀ m : OpcodeMap, fieldOpcode (encode m i) = m.code i.opcode

theorem EncodedOpcode.addReg (dr sr1 sr2 : Reg) : EncodedOpcode.Statement (.addReg dr sr1 sr2) := fun m => fieldOpcode_encode m _
theorem EncodedOpcode.addImm (dr sr1 : Reg) (imm5 : BitVec 5) : EncodedOpcode.Statement (.addImm dr sr1 imm5) := fun m => fieldOpcode_encode m _
theorem EncodedOpcode.andReg (dr sr1 sr2 : Reg) : EncodedOpcode.Statement (.andReg dr sr1 sr2) := fun m => fieldOpcode_encode m _
theorem EncodedOpcode.andImm (dr sr1 : Reg) (imm5 : BitVec 5) : EncodedOpcode.Statement (.andImm dr sr1 imm5) := fun m => fieldOpcode_encode m _
theorem EncodedOpcode.not (dr sr : Reg) : EncodedOpcode.Statement (.not dr sr) := fun m => fieldOpcode_encode m _
theorem EncodedOpcode.br (n z p : Bool) (off9 : BitVec 9) : EncodedOpcode.Statement (.br n z p off9) := fun m => fieldOpcode_encode m _
theorem EncodedOpcode.jmp (base : Reg) : EncodedOpcode.Statement (.jmp base) := fun m => fieldOpcode_encode m _
theorem EncodedOpcode.ret : EncodedOpcode.Statement .ret := fun m => fieldOpcode_encode m _
theorem EncodedOpcode.jsr (off11 : BitVec 11) : EncodedOpcode.Statement (.jsr off11) := fun m => fieldOpcode_encode m _
theorem EncodedOpcode.jsrr (base : Reg) : EncodedOpcode.Statement (.jsrr base) := fun m => fieldOpcode_encode m _
theorem EncodedOpcode.ld (dr : Reg) (off9 : BitVec 9) : EncodedOpcode.Statement (.ld dr off9) := fun m => fieldOpcode_encode m _
theorem EncodedOpcode.ldi (dr : Reg) (off9 : BitVec 9) : EncodedOpcode.Statement (.ldi dr off9) := fun m => fieldOpcode_encode m _
theorem EncodedOpcode.ldr (dr base : Reg) (off6 : BitVec 6) : EncodedOpcode.Statement (.ldr dr base off6) := fun m => fieldOpcode_encode m _
theorem EncodedOpcode.lea (dr : Reg) (off9 : BitVec 9) : EncodedOpcode.Statement (.lea dr off9) := fun m => fieldOpcode_encode m _
theorem EncodedOpcode.st (sr : Reg) (off9 : BitVec 9) : EncodedOpcode.Statement (.st sr off9) := fun m => fieldOpcode_encode m _
theorem EncodedOpcode.sti (sr : Reg) (off9 : BitVec 9) : EncodedOpcode.Statement (.sti sr off9) := fun m => fieldOpcode_encode m _
theorem EncodedOpcode.str (sr base : Reg) (off6 : BitVec 6) : EncodedOpcode.Statement (.str sr base off6) := fun m => fieldOpcode_encode m _
theorem EncodedOpcode.trap (unread : BitVec 4) (vec8 : BitVec 8) : EncodedOpcode.Statement (.trap unread vec8) := fun m => fieldOpcode_encode m _
theorem EncodedOpcode.getc : EncodedOpcode.Statement .getc := fun m => fieldOpcode_encode m _
theorem EncodedOpcode.out : EncodedOpcode.Statement .out := fun m => fieldOpcode_encode m _
theorem EncodedOpcode.puts : EncodedOpcode.Statement .puts := fun m => fieldOpcode_encode m _
theorem EncodedOpcode.inp : EncodedOpcode.Statement .inp := fun m => fieldOpcode_encode m _
theorem EncodedOpcode.putsp : EncodedOpcode.Statement .putsp := fun m => fieldOpcode_encode m _
theorem EncodedOpcode.halt : EncodedOpcode.Statement .halt := fun m => fieldOpcode_encode m _
theorem EncodedOpcode.rti (unread : BitVec 12) : EncodedOpcode.Statement (.rti unread) := fun m => fieldOpcode_encode m _
theorem EncodedOpcode.res (unread : BitVec 12) : EncodedOpcode.Statement (.res unread) := fun m => fieldOpcode_encode m _

/-! ### BodyRoundTrip: the fields of the encoded Word of a well-formed instruction are its operands -/

/-- The family's statement. -/
def BodyRoundTrip.Statement (i : Instr) : Prop :=
  i.wf = true → ∀ m : OpcodeMap, decodeAs i.opcode (encode m i) = i

theorem BodyRoundTrip.addReg (dr sr1 sr2 : Reg) : BodyRoundTrip.Statement (.addReg dr sr1 sr2) := by
  intro _ m
  simp only [Instr.opcode, decodeAs, bit5_of_register (.addReg dr sr1 sr2) _ _ sr2 rfl,
    fieldReg11_encode (.addReg dr sr1 sr2) dr _ rfl, fieldReg8_encode (.addReg dr sr1 sr2) _ sr1 _ rfl,
    fieldReg2_encode (.addReg dr sr1 sr2) _ _ sr2 rfl]
  rfl

theorem BodyRoundTrip.addImm (dr sr1 : Reg) (imm5 : BitVec 5) : BodyRoundTrip.Statement (.addImm dr sr1 imm5) := by
  intro _ m
  simp only [Instr.opcode, decodeAs, bit5_of_immediate (.addImm dr sr1 imm5) _ _ imm5 rfl,
    fieldReg11_encode (.addImm dr sr1 imm5) dr _ rfl, fieldReg8_encode (.addImm dr sr1 imm5) _ sr1 _ rfl,
    fieldImm5_encode (.addImm dr sr1 imm5) _ _ imm5 rfl]
  rfl

theorem BodyRoundTrip.andReg (dr sr1 sr2 : Reg) : BodyRoundTrip.Statement (.andReg dr sr1 sr2) := by
  intro _ m
  simp only [Instr.opcode, decodeAs, bit5_of_register (.andReg dr sr1 sr2) _ _ sr2 rfl,
    fieldReg11_encode (.andReg dr sr1 sr2) dr _ rfl, fieldReg8_encode (.andReg dr sr1 sr2) _ sr1 _ rfl,
    fieldReg2_encode (.andReg dr sr1 sr2) _ _ sr2 rfl]
  rfl

theorem BodyRoundTrip.andImm (dr sr1 : Reg) (imm5 : BitVec 5) : BodyRoundTrip.Statement (.andImm dr sr1 imm5) := by
  intro _ m
  simp only [Instr.opcode, decodeAs, bit5_of_immediate (.andImm dr sr1 imm5) _ _ imm5 rfl,
    fieldReg11_encode (.andImm dr sr1 imm5) dr _ rfl, fieldReg8_encode (.andImm dr sr1 imm5) _ sr1 _ rfl,
    fieldImm5_encode (.andImm dr sr1 imm5) _ _ imm5 rfl]
  rfl

theorem BodyRoundTrip.not (dr sr : Reg) : BodyRoundTrip.Statement (.not dr sr) := by
  intro _ m
  simp only [Instr.opcode, decodeAs, fieldReg11_encode (.not dr sr) dr _ rfl,
    fieldReg8_encode (.not dr sr) _ sr _ rfl]

theorem BodyRoundTrip.br (n z p : Bool) (off9 : BitVec 9) : BodyRoundTrip.Statement (.br n z p off9) := by
  intro _ m
  have h := fun k h9 h12 => getLsbD_high_encode (m := m) (.br n z p off9)
    (BitVec.ofBool n ++ (BitVec.ofBool z ++ BitVec.ofBool p)) off9 rfl k h9 h12
  simp only [Instr.opcode, decodeAs, h 11 (by decide) (by decide), h 10 (by decide) (by decide),
    h 9 (by decide) (by decide),
    fieldOff9_encode (.br n z p off9) (BitVec.ofBool n ++ (BitVec.ofBool z ++ BitVec.ofBool p)) off9 rfl]
  cases n <;> cases z <;> cases p <;> rfl

theorem BodyRoundTrip.jmp (base : Reg) : BodyRoundTrip.Statement (.jmp base) := by
  intro h m
  have hb : base ≠ .r7 := by simpa [Instr.wf] using h
  simp only [Instr.opcode, decodeAs, fieldReg8_encode (.jmp base) _ base _ rfl, if_neg hb]

theorem BodyRoundTrip.ret : BodyRoundTrip.Statement .ret := by
  intro _ m
  simp only [Instr.opcode, decodeAs, fieldReg8_encode .ret _ .r7 _ rfl]
  rfl

theorem BodyRoundTrip.jsr (off11 : BitVec 11) : BodyRoundTrip.Statement (.jsr off11) := by
  intro _ m
  simp only [Instr.opcode, decodeAs, bit11_of_jsr (.jsr off11) off11 rfl, fieldOff11_encode (.jsr off11) off11 rfl]
  rfl

theorem BodyRoundTrip.jsrr (base : Reg) : BodyRoundTrip.Statement (.jsrr base) := by
  intro _ m
  simp only [Instr.opcode, decodeAs, getLsbD_high_encode (.jsrr base) 0b000#3 _ rfl 11 (by decide) (by decide),
    fieldReg8_encode (.jsrr base) _ base _ rfl]
  rfl

theorem BodyRoundTrip.ld (dr : Reg) (off9 : BitVec 9) : BodyRoundTrip.Statement (.ld dr off9) := by
  intro _ m
  simp only [Instr.opcode, decodeAs, fieldReg11_encode (.ld dr off9) dr _ rfl,
    fieldOff9_encode (.ld dr off9) dr.toBits off9 rfl]

theorem BodyRoundTrip.ldi (dr : Reg) (off9 : BitVec 9) : BodyRoundTrip.Statement (.ldi dr off9) := by
  intro _ m
  simp only [Instr.opcode, decodeAs, fieldReg11_encode (.ldi dr off9) dr _ rfl,
    fieldOff9_encode (.ldi dr off9) dr.toBits off9 rfl]

theorem BodyRoundTrip.ldr (dr base : Reg) (off6 : BitVec 6) : BodyRoundTrip.Statement (.ldr dr base off6) := by
  intro _ m
  simp only [Instr.opcode, decodeAs, fieldReg11_encode (.ldr dr base off6) dr _ rfl,
    fieldReg8_encode (.ldr dr base off6) _ base _ rfl,
    fieldOff6_encode (.ldr dr base off6) dr.toBits base.toBits off6 rfl]

theorem BodyRoundTrip.lea (dr : Reg) (off9 : BitVec 9) : BodyRoundTrip.Statement (.lea dr off9) := by
  intro _ m
  simp only [Instr.opcode, decodeAs, fieldReg11_encode (.lea dr off9) dr _ rfl,
    fieldOff9_encode (.lea dr off9) dr.toBits off9 rfl]

theorem BodyRoundTrip.st (sr : Reg) (off9 : BitVec 9) : BodyRoundTrip.Statement (.st sr off9) := by
  intro _ m
  simp only [Instr.opcode, decodeAs, fieldReg11_encode (.st sr off9) sr _ rfl,
    fieldOff9_encode (.st sr off9) sr.toBits off9 rfl]

theorem BodyRoundTrip.sti (sr : Reg) (off9 : BitVec 9) : BodyRoundTrip.Statement (.sti sr off9) := by
  intro _ m
  simp only [Instr.opcode, decodeAs, fieldReg11_encode (.sti sr off9) sr _ rfl,
    fieldOff9_encode (.sti sr off9) sr.toBits off9 rfl]

theorem BodyRoundTrip.str (sr base : Reg) (off6 : BitVec 6) : BodyRoundTrip.Statement (.str sr base off6) := by
  intro _ m
  simp only [Instr.opcode, decodeAs, fieldReg11_encode (.str sr base off6) sr _ rfl,
    fieldReg8_encode (.str sr base off6) _ base _ rfl,
    fieldOff6_encode (.str sr base off6) sr.toBits base.toBits off6 rfl]

theorem BodyRoundTrip.trap (unread : BitVec 4) (vec8 : BitVec 8) : BodyRoundTrip.Statement (.trap unread vec8) := by
  intro h m
  have hv : serviceAt vec8 = none := (serviceAt_eq_none_iff vec8).mpr (by simpa [Instr.wf] using h)
  simp only [Instr.opcode, decodeAs, fieldVec8_encode (.trap unread vec8) unread vec8 rfl,
    fieldTrapUnread_encode (.trap unread vec8) unread vec8 rfl, hv]

theorem BodyRoundTrip.getc : BodyRoundTrip.Statement .getc := by
  intro _ m
  simp only [Instr.opcode, decodeAs, fieldVec8_encode .getc _ Service.getc.vector rfl, serviceAt_vector]
  rfl

theorem BodyRoundTrip.out : BodyRoundTrip.Statement .out := by
  intro _ m
  simp only [Instr.opcode, decodeAs, fieldVec8_encode .out _ Service.out.vector rfl, serviceAt_vector]
  rfl

theorem BodyRoundTrip.puts : BodyRoundTrip.Statement .puts := by
  intro _ m
  simp only [Instr.opcode, decodeAs, fieldVec8_encode .puts _ Service.puts.vector rfl, serviceAt_vector]
  rfl

theorem BodyRoundTrip.inp : BodyRoundTrip.Statement .inp := by
  intro _ m
  simp only [Instr.opcode, decodeAs, fieldVec8_encode .inp _ Service.inp.vector rfl, serviceAt_vector]
  rfl

theorem BodyRoundTrip.putsp : BodyRoundTrip.Statement .putsp := by
  intro _ m
  simp only [Instr.opcode, decodeAs, fieldVec8_encode .putsp _ Service.putsp.vector rfl, serviceAt_vector]
  rfl

theorem BodyRoundTrip.halt : BodyRoundTrip.Statement .halt := by
  intro _ m
  simp only [Instr.opcode, decodeAs, fieldVec8_encode .halt _ Service.halt.vector rfl, serviceAt_vector]
  rfl

theorem BodyRoundTrip.rti (unread : BitVec 12) : BodyRoundTrip.Statement (.rti unread) := by
  intro _ m
  simp only [Instr.opcode, decodeAs, fieldUnread12_encode (.rti unread) unread rfl]

theorem BodyRoundTrip.res (unread : BitVec 12) : BodyRoundTrip.Statement (.res unread) := by
  intro _ m
  simp only [Instr.opcode, decodeAs, fieldUnread12_encode (.res unread) unread rfl]

end Sys2Proof.Laws
end

