-- ==== Sys2Proof/Laws/Step.lean ====
section
/-! SUPPORT. What a step can do, said once: its cases, and the relation `Advances` that every operation, every
instruction and every step of the machine stays in. -/

namespace Sys2Proof.Machine

/-- Every instruction has a next state. -/
theorem exec_completes (i : Instr) (s : State) : ∃ t, exec i s = .next t := by
  cases i <;> exact ⟨_, rfl⟩

/-- A step that has a next state is an instruction cycle or a step of the trap FSM, from a running machine. -/
theorem step_cases {s t : State} (h : step s = .next t) :
    s.rs = .running ∧
      ((s.ts = .idle ∧ ∃ i, decode s.cfg.opcodeMap (fetch s.land).1 = .ok i ∧ exec i (fetch s.land).2 = .next t) ∨
       (s.ts ≠ .idle ∧ t = trapFsmStep s.land)) := by
  unfold step at h
  split at h
  · simp at h
  · simp at h
  · next hrs =>
    refine ⟨hrs, ?_⟩
    split at h
    · next hts =>
      unfold cycle at h
      split at h
      · next i hi => exact .inl ⟨hts, i, by simpa using hi, h⟩
      · simp at h
    all_goals
      next hts =>
      refine .inr ⟨by simp [hts], ?_⟩
      simpa using h.symm

/-- An instruction cycle that decodes runs the instruction. -/
theorem step_of_decode {s : State} {i : Instr} (hrs : s.rs = .running) (hts : s.ts = .idle)
    (hi : decode s.cfg.opcodeMap (fetch s.land).1 = .ok i) : step s = exec i (fetch s.land).2 := by
  have hi' : decode s.land.cfg.opcodeMap (fetch s.land).1 = .ok i := by simpa using hi
  simp only [step, hrs, hts, cycle, hi']

/-- A trap FSM step. -/
theorem step_of_phase {s : State} (hrs : s.rs = .running) (hts : s.ts ≠ .idle) :
    step s = .next (trapFsmStep s.land) := by
  simp only [step, hrs]
  split
  · next h => exact absurd h hts
  all_goals rfl

/-- What never goes back: the parameters and the bytes to come stay, the canonical form is kept, input is only taken
from its front, output is only added at its end. -/
structure Advances (s t : State) : Prop where
  cfg : t.cfg = s.cfg
  arrivals : t.arrivals = s.arrivals
  mem_wf : s.mem.wf → t.mem.wf
  input : ∃ taken, s.input = taken ++ t.input
  output : ∃ bytes, t.output = s.output ++ bytes

namespace Advances

variable {s t u : State}

theorem refl (s : State) : Advances s s := ⟨rfl, rfl, id, ⟨[], rfl⟩, ⟨[], by simp⟩⟩

theorem trans (h : Advances s t) (k : Advances t u) : Advances s u := by
  obtain ⟨x, hx⟩ := h.input
  obtain ⟨y, hy⟩ := k.input
  obtain ⟨p, hp⟩ := h.output
  obtain ⟨q, hq⟩ := k.output
  exact ⟨k.cfg.trans h.cfg, k.arrivals.trans h.arrivals, fun w => k.mem_wf (h.mem_wf w),
    ⟨x ++ y, by rw [hx, hy, List.append_assoc]⟩, ⟨p ++ q, by rw [hq, hp, List.append_assoc]⟩⟩

theorem setReg (r : Reg) (v : Word) (h : Advances s t) : Advances s (t.setReg r v) := ⟨h.1, h.2, h.3, h.4, h.5⟩

theorem setPc (v : Word) (h : Advances s t) : Advances s (t.setPc v) := ⟨h.1, h.2, h.3, h.4, h.5⟩

theorem setCond (c : Cond) (h : Advances s t) : Advances s (t.setCond c) := ⟨h.1, h.2, h.3, h.4, h.5⟩

theorem setRs (r : RunState) (h : Advances s t) : Advances s (t.setRs r) := ⟨h.1, h.2, h.3, h.4, h.5⟩

theorem setTs (p : TrapPhase) (h : Advances s t) : Advances s (t.setTs p) := ⟨h.1, h.2, h.3, h.4, h.5⟩

theorem poke (a v : Word) (h : Advances s t) : Advances s (t.poke a v) :=
  ⟨h.1, h.2, fun w => Memory.wf_write (h.3 w) a v, h.4, h.5⟩

theorem emit (l : List Byte) (h : Advances s t) : Advances s (t.emit l) :=
  h.trans ⟨rfl, rfl, id, ⟨[], rfl⟩, ⟨l, rfl⟩⟩

theorem take {b : Byte} {rest : List Byte} (hb : t.input = b :: rest) (h : Advances s t) :
    Advances s (t.setInput rest) :=
  h.trans ⟨rfl, rfl, id, ⟨[b], by simp [hb]⟩, ⟨[], by simp⟩⟩

theorem poll (a : Word) (h : Advances s t) : Advances s (pollIfStatus a t) := by
  refine h.trans ⟨by simp, by simp, pollIfStatus_mem_wf a, ?_, ⟨[], by simp⟩⟩
  rw [pollIfStatus_input]
  split
  · exact ⟨t.input.take 1, by simp [← List.drop_one]⟩
  · exact ⟨[], rfl⟩

theorem writeResult (dr : Reg) (v : Word) (h : Advances s t) : Advances s (writeResult dr v t) :=
  (h.setReg dr v).setCond _

theorem trapEntry (h : Advances s t) : Advances s (trapEntry t) := h.setReg _ _

end Advances

/-- Every vector's dispatch advances. -/
theorem trapDispatch_advances {s t : State} (word : Word) (vec8 : BitVec 8) (h : Advances s t) :
    Advances s (trapDispatch word vec8 t) := by
  unfold trapDispatch
  split
  · exact h.setTs _
  · exact h.emit _
  · exact h.setTs _
  · exact (h.emit _).setTs _
  · exact h.setTs _
  · exact (h.emit _).setRs _
  · unfold unknownVector
    split
    · exact h.setRs _
    · exact h

/-- Every instruction advances. -/
theorem exec_advances {i : Instr} {s t : State} (h : exec i s = .next t) : Advances s t := by
  have r := Advances.refl s
  cases i <;> simp only [exec] at h <;> cases h
  case addReg | addImm | andReg | andImm | not | lea => exact r.writeResult _ _
  case br =>
    split
    · exact r.setPc _
    · exact r
  case jmp | ret => exact r.setPc _
  case jsr | jsrr => exact (r.setReg _ _).setPc _
  case ld | ldr => exact (r.poll _).writeResult _ _
  case ldi => exact ((r.poll _).poll _).writeResult _ _
  case st | str => exact r.poke _ _
  case sti => exact (r.poll _).poke _ _
  case trap => exact trapDispatch_advances _ _ r.trapEntry
  case getc | puts | putsp => exact r.trapEntry.setTs _
  case out => exact r.trapEntry.emit _
  case inp => exact (r.trapEntry.emit _).setTs _
  case halt => exact (r.trapEntry.emit _).setRs _
  case rti | res => exact r.setRs _

/-- Every step of the trap FSM advances. -/
theorem trapFsmStep_advances (s : State) : Advances s (trapFsmStep s) := by
  have r := Advances.refl s
  unfold trapFsmStep
  split
  · exact r
  · unfold getcWaitStep
    split
    · next h => exact ((r.take h).setReg _ _).setTs _
    · exact r
  · unfold inWaitStep
    split
    · next h => exact (((r.take h).emit _).setReg _ _).setTs _
    · exact r
  · unfold putsStep
    split
    · exact (r.poll _).setTs _
    · exact ((r.poll _).emit _).setTs _
  · unfold putspStep
    split
    · exact (r.poll _).setTs _
    · exact ((r.poll _).emit _).setTs _

theorem fetch_advances (s : State) : Advances s (fetch s).2 := ((Advances.refl s).poll _).setPc _

/-- Once the host's bytes have landed, a step advances. -/
theorem step_advances {s t : State} (h : step s = .next t) : Advances s.land t := by
  obtain ⟨-, ⟨-, i, -, hx⟩ | ⟨-, rfl⟩⟩ := step_cases h
  · exact (fetch_advances _).trans (exec_advances hx)
  · exact trapFsmStep_advances _

/-! ### Runs, flags, and the run state -/

/-- A run of one more step. -/
theorem run_next {M : Host.Core} {s s' : M.State} (h : M.step s = .next s') (k : Nat) :
    M.run (k + 1) s = M.run k s' := by
  simp [Host.Core.run, h]

/-- `condOf` is the flag of its Word. -/
theorem flagsFrom_condOf (v : Word) : FlagsFrom (condOf v) v := ⟨condOf_eq_neg, condOf_eq_zero, condOf_eq_pos⟩

/-- A step of the trap FSM leaves the run state. -/
theorem trapFsmStep_rs (s : State) : (trapFsmStep s).rs = s.rs := by
  unfold trapFsmStep getcWaitStep inWaitStep putsStep putspStep
  split <;> (try split) <;> simp [trapReturn]

/-- What the dispatch of TRAP does to the run state. -/
theorem trapDispatch_rs (word : Word) (vec8 : BitVec 8) {s : State} (h : s.rs = .running) :
    (trapDispatch word vec8 s).rs = .running ∨
      (serviceAt vec8 = some .halt ∧ (trapDispatch word vec8 s).rs = .halted) ∨
      (serviceAt vec8 = none ∧ s.cfg.trapUnknownPolicy = .fault ∧
        (trapDispatch word vec8 s).rs = .faulted .unrecognizedTrap word) := by
  unfold trapDispatch
  cases hv : serviceAt vec8 with
  | none =>
    simp only [unknownVector]
    cases hp : s.cfg.trapUnknownPolicy <;> simp [raise, h]
  | some x => cases x <;> simp [startGetc, startOut, startPuts, startIn, startPutsp, startHalt, h]

/-- The dispatch of TRAP changes no register, flag, memory word or input, and not `pc`. -/
theorem trapDispatch_frame (word : Word) (vec8 : BitVec 8) (s : State) :
    (trapDispatch word vec8 s).regs = s.regs ∧ (trapDispatch word vec8 s).pc = s.pc ∧
      (trapDispatch word vec8 s).cond = s.cond ∧ (trapDispatch word vec8 s).mem = s.mem ∧
      (trapDispatch word vec8 s).input = s.input ∧ HostSame s (trapDispatch word vec8 s) := by
  unfold trapDispatch unknownVector
  split <;> (try split) <;> exact ⟨rfl, rfl, rfl, rfl, rfl, ⟨rfl, rfl⟩⟩

/-- What ends every load (42_load.md R94): the Word read, the flags, and all that stays. -/
theorem loadFrom_spec (dr : Reg) (ea : Word) (s : State) :
    (loadFrom dr ea s).reg dr = (memRead ea s).1 ∧ (loadFrom dr ea s).cond = condOf (memRead ea s).1 ∧
      RegsSameBut dr s (loadFrom dr ea s) ∧ (loadFrom dr ea s).pc = s.pc ∧
      (loadFrom dr ea s).mem = (memRead ea s).2.mem ∧ (loadFrom dr ea s).input = (memRead ea s).2.input ∧
      (loadFrom dr ea s).output = s.output ∧ ControlSame s (loadFrom dr ea s) ∧ HostSame s (loadFrom dr ea s) := by
  refine ⟨by simp [loadFrom], by simp [loadFrom], fun q h => ?_, by simp [loadFrom], rfl, rfl, by simp [loadFrom],
    ⟨by simp [loadFrom], by simp [loadFrom]⟩, ⟨by simp [loadFrom], by simp [loadFrom]⟩⟩
  rw [loadFrom, writeResult_reg_of_ne _ _ h]
  simp

end Sys2Proof.Machine
end

