-- ==== Sys2Proof/Tests/Slice0.lean ====
section
/-! SUPPORT. The model's own tests. Expected values are those of spec/95_test_vectors.md (V1 to V93, F1 to F4, Z1 to
Z5, E1 to E9), named in each comment, or of the worked examples of the rules; none is the model's own answer. The last
part holds, for every statement with hypotheses, a named witness that meets them, at the boundaries of each clause. -/

namespace Sys2Proof.Tests

open Sys2Proof.Machine

/-! ### Helpers -/

/-- The machine of spec/95_test_vectors.md's vectors: reset, with an instruction word stored at `a` and `pc = a`. -/
def pre (a w : Word) : State := (State.reset.setPc a).poke a w

/-- One step, or `none` where there is no next state. -/
def post (s : State) : Option State :=
  match step s with
  | .next t => some t
  | .fault _ => none
  | .refused _ => none

/-- What one step leaves, seen through `f`. -/
def seen {α : Type} (s : State) (f : State → α) : Option α := (post s).map f

/-! ### WellFormed: each check refuses an ill-formed term -/

theorem test_wf_refuses_jmp_r7 : (Instr.jmp .r7).wf = false ∧ (Instr.jmp .r6).wf = true := by decide

theorem test_wf_refuses_trap_of_a_routine :
    (Instr.trap 0 0x20).wf = false ∧ (Instr.trap 0 0x25).wf = false ∧ (Instr.trap 0 0x1F).wf = true ∧
      (Instr.trap 0 0x26).wf = true := by decide

/-- A map that gives two names one value is refused. -/
theorem test_wf_refuses_an_opcode_map :
    ¬ ({ OpcodeMap.default with br := 0b1000 } : OpcodeMap).wf ∧ ¬ ({ OpcodeMap.default with br := 0b0001 } : OpcodeMap).wf := by
  decide

/-- Equal device addresses and a zero cause code are refused. -/
theorem test_wf_refuses_a_config :
    ¬ ({ Config.default with kbdrAddr := 0xFE00 } : Config).wf ∧ ¬ ({ Config.default with illegalOpcodeCode := 0 } : Config).wf ∧
      Config.default.wf := by decide

/-- A memory that is out of order, lists an address twice, lists a zero, or lists no address, is not canonical. -/
theorem test_wf_refuses_a_memory :
    ¬ Memory.wf [(2, 1), (1, 1)] ∧ ¬ Memory.wf [(1, 1), (1, 2)] ∧ ¬ Memory.wf [(1, 0)] ∧ ¬ Memory.wf [(65536, 1)] ∧
      Memory.wf [(1, 1), (65535, 2)] := by decide

/-! ### Decoding: words written out from the formats of 30_encoding.md R53 -/

theorem test_decode_operate :
    decode .default 0b0001010001000000 = .ok (.addReg .r2 .r1 .r0) ∧
    decode .default 0b0001000001100001 = .ok (.addImm .r0 .r1 1) ∧
    decode .default 0b0101011001000010 = .ok (.andReg .r3 .r1 .r2) ∧
    decode .default 0b0101000000100000 = .ok (.andImm .r0 .r0 0) ∧
    decode .default 0b1001001010111111 = .ok (.not .r1 .r2) := by decide

theorem test_decode_control :
    decode .default 0b0000100111111111 = .ok (.br true false false 0x1FF) ∧
    decode .default 0b0000010000000001 = .ok (.br false true false 1) ∧
    decode .default 0b0000001111111101 = .ok (.br false false true 0x1FD) ∧
    decode .default 0b1100000011000000 = .ok (.jmp .r3) ∧
    decode .default 0b1100000111000000 = .ok .ret ∧
    decode .default 0b0100110000000000 = .ok (.jsr 0x400) ∧
    decode .default 0b0100000010000000 = .ok (.jsrr .r2) := by decide

theorem test_decode_load :
    decode .default 0b0010001000000010 = .ok (.ld .r1 2) ∧
    decode .default 0b1010010000000001 = .ok (.ldi .r2 1) ∧
    decode .default 0b0110011001111111 = .ok (.ldr .r3 .r1 0x3F) ∧
    decode .default 0b1110000000000010 = .ok (.lea .r0 2) := by decide

theorem test_decode_store :
    decode .default 0b0011000000000001 = .ok (.st .r0 1) ∧
    decode .default 0b1011001000000010 = .ok (.sti .r1 2) ∧
    decode .default 0b0111010011000100 = .ok (.str .r2 .r3 4) := by decide

theorem test_decode_trap :
    decode .default 0b1111000000100000 = .ok .getc ∧ decode .default 0b1111000000100001 = .ok .out ∧
    decode .default 0b1111000000100010 = .ok .puts ∧ decode .default 0b1111000000100011 = .ok .inp ∧
    decode .default 0b1111000000100100 = .ok .putsp ∧ decode .default 0b1111000000100101 = .ok .halt ∧
    decode .default 0b1111000000100110 = .ok (.trap 0 0x26) := by decide

theorem test_decode_unassigned :
    decode .default 0b1000111111111111 = .ok (.rti 0xFFF) ∧ decode .default 0b1101101010111100 = .ok (.res 0xABC) := by
  decide

/-- Bits that are not read (V7, V17, V33, V41, V71). -/
theorem test_decode_ignores_unread_bits :
    decode .default 0x1458 = .ok (.addReg .r2 .r1 .r0) ∧ decode .default 0x9280 = .ok (.not .r1 .r2) ∧
    decode .default 0xCEFF = .ok (.jmp .r3) ∧ decode .default 0x46BF = .ok (.jsrr .r2) ∧
    decode .default 0xFF21 = .ok .out := by decide

/-- The worked examples' words, from their instructions. -/
theorem test_encode :
    encode .default (.addImm .r0 .r1 1) = 0x1061 ∧ encode .default (.not .r1 .r2) = 0x92BF ∧
    encode .default (.br false false true 0x1FD) = 0x03FD ∧ encode .default .ret = 0xC1C0 ∧
    encode .default (.jsr 5) = 0x4805 ∧ encode .default (.ldr .r3 .r1 0x3F) = 0x667F ∧
    encode .default .halt = 0xF025 := by decide

theorem test_decodeTableWord :
    decodeTableWord 16 0xF025 = some .halt ∧ decodeTableWord 16 0 = some (.br false false false 0) ∧
      decodeTableWord 32 0xF025 = none ∧ decodeTableWord 16 0x10000 = none := by decide

/-- With another admitted map (BR and ADD exchanged) a word means another instruction. -/
theorem test_decode_other_map :
    decode { OpcodeMap.default with br := 0b0001, add := 0b0000 } 0x0061 = .ok (.addImm .r0 .r1 1) := by decide

/-- E1. -/
theorem test_sext :
    sext (0x0F : BitVec 5) = 0x000F ∧ sext (0x10 : BitVec 5) = 0xFFF0 ∧ sext (0x20 : BitVec 6) = 0xFFE0 ∧
    sext (0x100 : BitVec 9) = 0xFF00 ∧ sext (0x400 : BitVec 11) = 0xFC00 ∧ sext (1 : BitVec 1) = 0xFFFF ∧
    sext (0x8000 : BitVec 16) = 0x8000 := by decide

/-! ### Steps -/

/-- V1. -/
theorem test_add_register :
    seen (((pre 0x3000 0x1440).setReg .r0 4).setReg .r1 3) (fun t => (t.reg .r2, t.pc, t.cond)) =
      some (7, 0x3001, .pos) := by decide

/-- V8. -/
theorem test_add_register_wraps :
    seen (((pre 0x3000 0x1040).setReg .r0 0xFFFF).setReg .r1 0x8000) (fun t => (t.reg .r0, t.cond)) =
      some (0x7FFF, .pos) := by decide

/-- V2, E8. -/
theorem test_add_immediate_changes_sign :
    seen ((pre 0x3000 0x1061).setReg .r1 0x7FFF) (fun t => (t.reg .r0, t.pc, t.cond)) =
      some (0x8000, 0x3001, .neg) := by decide

/-- V9: `pc` wraps. -/
theorem test_add_immediate_at_the_top :
    seen ((pre 0xFFFF 0x1021).setReg .r0 0xFFFF) (fun t => (t.reg .r0, t.pc, t.cond)) = some (0, 0, .zero) := by decide

/-- V11. -/
theorem test_and_register :
    seen (((pre 0x3000 0x5642).setReg .r1 0xF0F0).setReg .r2 0xFF00) (fun t => (t.reg .r3, t.cond)) =
      some (0xF000, .neg) := by decide

/-- V14: the immediate is sign-extended. -/
theorem test_and_immediate :
    seen ((pre 0x3000 0x52B0).setReg .r2 0xABCD) (fun t => (t.reg .r1, t.cond)) = some (0xABC0, .neg) := by decide

/-- V15. -/
theorem test_not : seen ((pre 0x3000 0x92BF).setReg .r2 0x00FF) (fun t => (t.reg .r1, t.cond)) = some (0xFF00, .neg) := by
  decide

/-- V16: the destination is the source. -/
theorem test_not_in_place :
    seen ((pre 0x3000 0x903F).setReg .r0 0xFFFF) (fun t => (t.reg .r0, t.cond)) = some (0, .zero) := by decide

/-- V20. -/
theorem test_br_taken : seen ((pre 0x3004 0x03FD).setCond .pos) (fun t => (t.pc, t.cond)) = some (0x3002, .pos) := by
  decide

/-- V27. -/
theorem test_br_not_taken : seen ((pre 0x3000 0x0A05).setCond .zero) (fun t => t.pc) = some 0x3001 := by decide

/-- V31. -/
theorem test_jmp : seen ((pre 0x3000 0xC0C0).setReg .r3 0x4000) (fun t => (t.pc, t.reg .r7)) = some (0x4000, 0) := by
  decide

/-- V32. -/
theorem test_ret : seen ((pre 0x4000 0xC1C0).setReg .r7 0x3001) (fun t => (t.pc, t.reg .r7)) = some (0x3001, 0x3001) := by
  decide

/-- V35, E9. -/
theorem test_jsr : seen (pre 0x3000 0x4805) (fun t => (t.pc, t.reg .r7)) = some (0x3006, 0x3001) := by decide

/-- V36: the most negative offset. -/
theorem test_jsr_backward : seen (pre 0x3000 0x4C00) (fun t => (t.pc, t.reg .r7)) = some (0x2C01, 0x3001) := by decide

/-- V39. -/
theorem test_jsrr : seen ((pre 0x3000 0x4080).setReg .r2 0x5000) (fun t => (t.pc, t.reg .r7)) = some (0x5000, 0x3001) := by
  decide

/-- V40: the link is written first. -/
theorem test_jsrr_r7 : seen ((pre 0x3000 0x41C0).setReg .r7 0x5000) (fun t => (t.pc, t.reg .r7)) = some (0x3001, 0x3001) := by
  decide

/-- V43. -/
theorem test_ld : seen ((pre 0x3000 0x2202).poke 0x3003 0xABCD) (fun t => (t.reg .r1, t.cond)) = some (0xABCD, .neg) := by
  decide

/-- V45: a load of KBSR polls. -/
theorem test_ld_polls :
    seen ((pre 0xFDFE 0x2001).setInput [0x41]) (fun t => (t.reg .r0, t.cond, t.peek 0xFE00, t.peek 0xFE02, t.input)) =
      some (0x8000, .neg, 0x8000, 0x0041, []) := by decide

/-- V48, E4. -/
theorem test_ldi :
    seen (((pre 0x3000 0xA401).poke 0x3002 0x4000).poke 0x4000 5) (fun t => (t.reg .r2, t.cond)) = some (5, .pos) := by
  decide

/-- V49: the second read polls. -/
theorem test_ldi_polls :
    seen (((pre 0x3000 0xA401).poke 0x3002 0xFE00).setInput [0x71]) (fun t => (t.reg .r2, t.peek 0xFE02, t.input)) =
      some (0x8000, 0x0071, []) := by decide

/-- V53: the address wraps below 0. -/
theorem test_ldr_wraps : seen ((pre 0x3000 0x607F).poke 0xFFFF 0x8001) (fun t => (t.reg .r0, t.cond)) = some (0x8001, .neg) := by
  decide

/-- V54: the destination is the base. -/
theorem test_ldr_in_place :
    seen (((pre 0x3000 0x6240).setReg .r1 0x4000).poke 0x4000 0x1234) (fun t => t.reg .r1) = some 0x1234 := by decide

/-- V57. -/
theorem test_lea : seen (pre 0x8000 0xE1FF) (fun t => (t.reg .r0, t.cond)) = some (0x8000, .neg) := by decide

/-- V59: LEA does not poll. -/
theorem test_lea_reads_nothing :
    seen ((pre 0xFDFE 0xE001).setInput [0x6B]) (fun t => (t.reg .r0, t.input, t.peek 0xFE00)) =
      some (0xFE00, [0x6B], 0) := by decide

/-- V60. -/
theorem test_st :
    seen (((pre 0x3005 0x3001).setReg .r0 0xF).setCond .neg) (fun t => (t.peek 0x3007, t.cond)) = some (0xF, .neg) := by
  decide

/-- V62: a store to KBSR is plain. -/
theorem test_st_status :
    seen (((pre 0xFDFE 0x3001).setReg .r0 0x1234).setInput [0x6B]) (fun t => (t.peek 0xFE00, t.peek 0xFE02, t.input)) =
      some (0x1234, 0, [0x6B]) := by decide

/-- V63. -/
theorem test_sti :
    seen (((pre 0x3000 0xB202).setReg .r1 0x1234).poke 0x3003 0x4000) (fun t => (t.peek 0x4000, t.peek 0x3003)) =
      some (0x1234, 0x4000) := by decide

/-- V65: the write does not poll. -/
theorem test_sti_status :
    seen ((((pre 0x3000 0xB202).setReg .r1 0x1234).poke 0x3003 0xFE00).setInput [0x6B])
      (fun t => (t.peek 0xFE00, t.peek 0xFE02, t.input)) = some (0x1234, 0, [0x6B]) := by decide

/-- V67: the address wraps. -/
theorem test_str_wraps :
    seen (((pre 0x3000 0x7041).setReg .r0 0xAA).setReg .r1 0xFFFF) (fun t => t.peek 0x0000) = some 0xAA := by decide

/-- V68: the source is the base. -/
theorem test_str_in_place : seen ((pre 0x3000 0x7240).setReg .r1 0x4000) (fun t => t.peek 0x4000) = some 0x4000 := by decide

/-- V70, V71. -/
theorem test_out :
    seen ((pre 0x3000 0xF021).setReg .r0 0x1241) (fun t => (t.output, t.reg .r7, t.pc)) = some ([0x41], 0x3001, 0x3001) ∧
    seen ((pre 0x3000 0xFF21).setReg .r0 0x1241) (fun t => t.output) = some [0x41] := by decide

/-- V88: after the TRAP step the byte is not yet taken. -/
theorem test_getc_starts :
    seen ((pre 0x3000 0xF020).setInput [0x61, 0x62]) (fun t => (t.ts, t.input, t.reg .r0, t.reg .r7)) =
      some (.getcWait, [0x61, 0x62], 0, 0x3001) := by decide

/-- V79: the byte is zero-extended and no flag is set. -/
theorem test_getc_takes :
    seen (((pre 0x3001 0).setTs .getcWait).setInput [0xFF]) (fun t => (t.reg .r0, t.cond, t.input, t.ts)) =
      some (0x00FF, .zero, [], .idle) := by decide

/-- Program P1, step 2. -/
theorem test_puts_starts :
    seen ((pre 0x3001 0xF022).setReg .r0 0x3003) (fun t => (t.ts, t.reg .r7, t.pc)) =
      some (.putsRun 0x3003, 0x3002, 0x3002) := by decide

/-- V73: a word with a zero low byte does not end the string. -/
theorem test_puts_emits_the_low_byte :
    seen (((pre 0x3001 0).setTs (.putsRun 0x4001)).poke 0x4001 0x4100) (fun t => (t.output, t.ts)) =
      some ([0x00], .putsRun 0x4002) := by decide

/-- V82: the prompt is out before the wait. -/
theorem test_in_starts :
    seen (pre 0x3000 0xF023) (fun t => (t.ts, t.output.length, t.output.take 5, t.reg .r7)) =
      some (.inWait, 19, [0x45, 0x6E, 0x74, 0x65, 0x72], 0x3001) := by decide

/-- V81: the routine's own echo. -/
theorem test_in_takes :
    seen (((pre 0x3001 0).setTs .inWait).setInput [0x7A]) (fun t => (t.reg .r0, t.output, t.input, t.ts, t.cond)) =
      some (0x007A, [0x7A], [], .idle, .zero) := by decide

/-- Program P6, step 7. -/
theorem test_putsp_starts :
    seen ((pre 0x3004 0xF024).setReg .r0 0x3006) (fun t => (t.ts, t.reg .r7)) = some (.putspRun 0x3006, 0x3005) := by
  decide

/-- V76, V77: low byte first, a zero low byte is emitted, a zero high byte is not. -/
theorem test_putsp_emits :
    seen (((pre 0x3001 0).setTs (.putspRun 0x4000)).poke 0x4000 0x6548) (fun t => t.output) = some [0x48, 0x65] ∧
    seen (((pre 0x3001 0).setTs (.putspRun 0x4000)).poke 0x4000 0x4100) (fun t => t.output) = some [0x00, 0x41] ∧
    seen (((pre 0x3001 0).setTs (.putspRun 0xFFFF)).poke 0xFFFF 0x0042) (fun t => (t.output, t.ts)) =
      some ([0x42], .putspRun 0x0000) := by decide

/-- V83. -/
theorem test_halt :
    seen ((pre 0x3002 0xF025).setCond .pos) (fun t => (t.rs, t.output, t.reg .r7, t.pc, t.cond)) =
      some (.halted, [0x48, 0x41, 0x4C, 0x54, 0x0A], 0x3003, 0x3003, .pos) := by decide

/-- V84, V87. -/
theorem test_trap_unknown_faults :
    seen (pre 0x3000 0xF026) (fun t => (t.rs, t.reg .r7, t.pc)) =
      some (.faulted .unrecognizedTrap 0xF026, 0x3001, 0x3001) ∧
    seen (pre 0x3000 0xF01F) (fun t => t.rs) = some (.faulted .unrecognizedTrap 0xF01F) := by decide

/-- V85 under `TRAP_UNKNOWN_POLICY = nop`. -/
theorem test_trap_unknown_nop :
    seen { pre 0x3000 0xF000 with cfg := { Config.default with trapUnknownPolicy := .nop } }
      (fun t => (t.rs, t.ts, t.reg .r7, t.pc)) = some (.running, .idle, 0x3001, 0x3001) := by decide

/-- V90, V91. -/
theorem test_rti :
    seen (((pre 0x3000 0x8000).setReg .r1 0x1111).setCond .pos) (fun t => (t.rs, t.pc, t.reg .r1, t.cond)) =
      some (.faulted .illegalOpcode 0x8000, 0x3001, 0x1111, .pos) ∧
    seen (pre 0x3000 0x8FFF) (fun t => t.rs) = some (.faulted .illegalOpcode 0x8FFF) := by decide

/-- V92, V93. -/
theorem test_res :
    seen (pre 0x3005 0xD000) (fun t => (t.rs, t.pc)) = some (.faulted .illegalOpcode 0xD000, 0x3006) ∧
    seen ((pre 0x3000 0xDABC).setCond .neg) (fun t => (t.rs, t.cond)) = some (.faulted .illegalOpcode 0xDABC, .neg) := by
  decide

/-! ### The trap FSM, the fetch, reset and the host -/

/-- V80: with no byte pending the machine holds. -/
theorem test_getc_holds :
    post ((pre 0x3001 0).setTs .getcWait) = some ((pre 0x3001 0).setTs .getcWait) := by decide

/-- V80 continued: the host's byte lifts the hold. -/
theorem test_getc_after_the_host_supplies :
    seen (((pre 0x3001 0).setTs .getcWait).supply [0x61]) (fun t => (t.reg .r0, t.ts)) = some (0x61, .idle) ∧
    seen { (pre 0x3001 0).setTs .getcWait with arrivals := [[0x61]] } (fun t => (t.reg .r0, t.ts, t.arrivals)) =
      some (0x61, .idle, []) := by decide

/-- V74: the zero word ends PUTS. -/
theorem test_puts_ends : seen ((pre 0x3001 0).setTs (.putsRun 0x4000)) (fun t => (t.ts, t.output)) = some (.idle, []) := by
  decide

/-- V89: a string read of KBSR polls. -/
theorem test_puts_polls :
    seen (((pre 0x3001 0).setTs (.putsRun 0xFE00)).setInput [0x6B])
      (fun t => (t.output, t.ts, t.peek 0xFE00, t.peek 0xFE02, t.input)) =
      some ([0x00], .putsRun 0xFE01, 0x8000, 0x006B, []) := by decide

/-- F1. -/
theorem test_fetch_at_status_without_input :
    seen (pre 0xFE00 0x1021) (fun t => (t.peek 0xFE00, t.pc, t.reg .r0, t.rs)) = some (0, 0xFE01, 0, .running) := by decide

/-- F2. -/
theorem test_fetch_at_status_with_input :
    seen ((pre 0xFE00 0x1021).setInput [0x6B]) (fun t => (t.peek 0xFE00, t.peek 0xFE02, t.input, t.pc, t.rs)) =
      some (0x8000, 0x006B, [], 0xFE01, .faulted .illegalOpcode 0x8000) := by decide

/-- F4. -/
theorem test_fetch_at_data :
    seen ((pre 0xFE02 0x1021).setInput [0x6B]) (fun t => (t.reg .r0, t.pc, t.input)) = some (1, 0xFE03, [0x6B]) := by decide

/-- Z1. -/
theorem test_reset :
    State.reset.pc = 0x3000 ∧ State.reset.cond = .zero ∧ State.reset.regs = ⟨0, 0, 0, 0, 0, 0, 0, 0⟩ ∧
      State.reset.mem = [] ∧ State.reset.rs = .running ∧ State.reset.ts = .idle ∧ State.reset.output = [] := by decide

/-- Z2, Z3, Z4, Z5. -/
theorem test_images :
    (loadImages [] [[0x30, 0x00, 0xF0, 0x25]]) = [(0x3000, 0xF025)] ∧
    (loadImages [] [[0xFE, 0x00, 0x12, 0x34]]) = [(0xFE00, 0x1234)] ∧
    (loadImages [] [[0x30, 0x00, 0x11, 0x11, 0x22, 0x22], [0x30, 0x01, 0x33, 0x33]]) =
      [(0x3000, 0x1111), (0x3001, 0x3333)] ∧
    (loadImages [] [[0x30, 0x00, 0xF0]]) = [] := by decide

/-- E5: truncation at the top of memory. -/
theorem test_image_truncates :
    loadImage [] [0xFF, 0xFE, 0x00, 0x01, 0x00, 0x02, 0x00, 0x03] = [(0xFFFE, 1), (0xFFFF, 2)] := by decide

/-- Programs P1 and P5: the exit status. -/
theorem test_exit_status :
    exitStatus (State.reset.setRs .halted) = some 0 ∧
      exitStatus (State.reset.setRs (.faulted .illegalOpcode 0xD123)) = some 1 := by decide

/-- The instruction of `withFetchWord` is the one that runs. -/
theorem test_withFetchWord :
    seen ((State.reset.withFetchWord 16 0x1061).setReg .r1 0x7FFF) (fun t => t.reg .r0) = some 0x8000 := by decide

/-! ### Witnesses: for each statement with hypotheses, values that meet them -/

/-- An admitted map that is not the default: BR and TRAP exchanged. -/
def otherMap : OpcodeMap := { OpcodeMap.default with br := 0b1111, trap := 0b0000 }

theorem witness_DecodeOfEncodeIsIdentity :
    otherMap.wf ∧ (Instr.jmp .r6).wf = true ∧ (Instr.trap 0xF 0x1F).wf = true ∧ (Instr.trap 0 0x26).wf = true ∧
      (Instr.str .r7 .r7 0x3F).wf = true := by decide

theorem witness_EncodeOfDecodeKeepsReadBits : otherMap.wf ∧ OpcodeMap.default.wf := by decide

theorem witness_UnreadBitsDoNotChangeTheInstruction :
    decode .default 0x1440 = .ok (.addReg .r2 .r1 .r0) ∧
      (0x1458 : Word) &&& (Instr.addReg .r2 .r1 .r0).readMask = 0x1440 &&& (Instr.addReg .r2 .r1 .r0).readMask := by
  decide

theorem witness_IllegalWordsAreTheTwoUnassignedRanges :
    otherMap.wf ∧ decode otherMap 0x8000 = .ok (.rti 0) ∧ decode otherMap 0x8FFF = .ok (.rti 0xFFF) ∧
      decode otherMap 0xD000 = .ok (.res 0) ∧ decode otherMap 0xDFFF = .ok (.res 0xFFF) ∧
      decode otherMap 0x7FFF = .ok (.str .r7 .r7 0x3F) ∧ decode otherMap 0x9000 = .ok (.not .r0 .r0) := by decide

theorem witness_ExtensionsKeepTheValue :
    (0 : BitVec 1).getLsbD (1 - 1) = false ∧ (1 : BitVec 1).getLsbD (1 - 1) = true ∧
      (0x7FFF : BitVec 16).getLsbD (16 - 1) = false ∧ (0x8000 : BitVec 16).getLsbD (16 - 1) = true := by decide

theorem witness_SetccFollowsTheWord :
    (setcc 0x8000 State.reset).cond = .neg ∧ (setcc 0xFFFF State.reset).cond = .neg ∧ (setcc 0 State.reset).cond = .zero ∧
      (setcc 1 State.reset).cond = .pos ∧ (setcc 0x7FFF State.reset).cond = .pos := by decide

theorem witness_RegistersHoldTheLastWord : (Reg.r0 ≠ Reg.r7) ∧ (State.reset.setReg .r0 5).reg .r0 = 5 := by decide

theorem witness_FlagsAreSetByExactlySeven :
    flagDest (.lea .r3 0) = some .r3 ∧ flagDest .getc = none ∧
      ((pre 0x3001 0).setTs .getcWait).ts ≠ .idle ∧ (post (((pre 0x3001 0).setTs .getcWait).setInput [1])).isSome ∧
      ∀ n z p off9, Instr.ret ≠ .br n z p off9 := by
  refine ⟨by decide, by decide, by decide, by decide, ?_⟩
  intro n z p off9 h
  cases h

theorem witness_BusReadPollsOnlyTheStatusCell :
    (0xFE00 : Word) = State.reset.cfg.kbsrAddr ∧ (0xFE02 : Word) ≠ State.reset.cfg.kbsrAddr := by decide

theorem witness_KeyboardPollMovesOneByte :
    State.reset.cfg.kbsrAddr ≠ State.reset.cfg.kbdrAddr ∧ (State.reset.setInput [0xFF]).input = 0xFF :: [] ∧
      State.reset.input = [] := by decide

theorem witness_SecondPollOverwritesTheFirstByte :
    State.reset.cfg.kbsrAddr ≠ State.reset.cfg.kbdrAddr ∧ (State.reset.setInput [1, 2]).input = 1 :: 2 :: [] := by decide

/-- Two ways to write the same memory. -/
theorem witness_CanonicalMemoryIsUnique :
    Memory.wf (Memory.write (Memory.write [] 0 1) 0xFFFF 2) ∧
      Memory.write (Memory.write [] 0 1) 0xFFFF 2 = Memory.write (Memory.write [] 0xFFFF 2) 0 1 := by decide

theorem witness_FetchFromTheStatusCellPolls :
    (pre 0xFE00 0x1021).cfg.kbsrAddr ≠ (pre 0xFE00 0x1021).cfg.kbdrAddr ∧
      (pre 0xFE00 0x1021).pc = (pre 0xFE00 0x1021).cfg.kbsrAddr ∧
      ((pre 0xFE00 0x1021).setInput [1]).pc = ((pre 0xFE00 0x1021).setInput [1]).cfg.kbsrAddr := by decide

theorem witness_StoreIsSeenByTheNextFetch :
    (pre 0x3000 0x3001).pc + sext (0x1FF : BitVec 9) ≠ (pre 0x3000 0x3001).cfg.kbsrAddr ∧
      (pointerRead 2 ((pre 0x3001 0xB202).poke 0x3003 0x4000)).1 ≠ State.reset.cfg.kbsrAddr ∧
      ((pre 0x3000 0x7041).setReg .r1 0xFFFF).reg .r1 + sext (1 : BitVec 6) ≠ State.reset.cfg.kbsrAddr := by decide

/-- The words of each statement that starts from a word: an admitted map, and a word of the opcode with each value of
its form bit. -/
theorem witness_words :
    otherMap.wf ∧ (0x1440 : Word).extractLsb' 12 4 = otherMap.add ∧ (0x1440 : Word).getLsbD 5 = false ∧
      (0x1061 : Word).extractLsb' 12 4 = otherMap.add ∧ (0x1061 : Word).getLsbD 5 = true ∧
      (0x5642 : Word).extractLsb' 12 4 = otherMap.and ∧ (0x5020 : Word).extractLsb' 12 4 = otherMap.and ∧
      (0x92BF : Word).extractLsb' 12 4 = otherMap.not ∧ (0xF3FD : Word).extractLsb' 12 4 = otherMap.br ∧
      (0xC0C0 : Word).extractLsb' 12 4 = otherMap.jmp ∧ (0xC1C0 : Word).extractLsb' 12 4 = otherMap.jmp ∧
      (0x4805 : Word).extractLsb' 12 4 = otherMap.jsr ∧ (0x4805 : Word).getLsbD 11 = true ∧
      (0x4080 : Word).extractLsb' 12 4 = otherMap.jsr ∧ (0x4080 : Word).getLsbD 11 = false ∧
      (0x2202 : Word).extractLsb' 12 4 = otherMap.ld ∧ (0xA401 : Word).extractLsb' 12 4 = otherMap.ldi ∧
      (0x667F : Word).extractLsb' 12 4 = otherMap.ldr ∧ (0xE002 : Word).extractLsb' 12 4 = otherMap.lea ∧
      (0x3001 : Word).extractLsb' 12 4 = otherMap.st ∧ (0xB202 : Word).extractLsb' 12 4 = otherMap.sti ∧
      (0x74C4 : Word).extractLsb' 12 4 = otherMap.str ∧ (0x0026 : Word).extractLsb' 12 4 = otherMap.trap ∧
      (0x8FFF : Word).extractLsb' 12 4 = 0b1000#4 ∧ (0xDABC : Word).extractLsb' 12 4 = 0b1101#4 := by decide

/-- E3. -/
theorem witness_RegisterAndImmediateFormsAgree :
    (((pre 0x3000 0x1042).setReg .r1 0x1234).setReg .r2 0xFFFB).reg .r2 = sext (0b11011 : BitVec 5) := by decide

/-- BR: each way to be taken, and not taken, with every flag. -/
theorem witness_BranchTestsTheMask :
    branchTaken true false false .neg = true ∧ branchTaken false true false .zero = true ∧
      branchTaken false false true .pos = true ∧ branchTaken false true true .neg = false ∧
      branchTaken true false true .zero = false ∧ branchTaken true true false .pos = false ∧
      branchTaken false false false .zero = false := by decide

theorem witness_loads_away_from_the_status_cell :
    (pre 0x3000 0x2202).pc + sext (2 : BitVec 9) ≠ State.reset.cfg.kbsrAddr ∧
      (pre 0x3000 0xA401).peek ((pre 0x3000 0xA401).pc + sext (1 : BitVec 9)) ≠ State.reset.cfg.kbsrAddr ∧
      (pre 0x3000 0x607F).reg .r1 + sext (0x3F : BitVec 6) ≠ State.reset.cfg.kbsrAddr := by decide

theorem witness_UnknownVectorFollowsThePolicy :
    (0x1F : BitVec 8).toNat < 0x20 ∧ 0x25 < (0x26 : BitVec 8).toNat ∧ (0x00 : BitVec 8).toNat < 0x20 ∧
      0x25 < (0xFF : BitVec 8).toNat ∧ State.reset.cfg.trapUnknownPolicy = .fault ∧
      { Config.default with trapUnknownPolicy := .nop }.trapUnknownPolicy = .nop := by decide

theorem witness_WaitingRoutinesTakeOneByte :
    (((pre 0x3001 0).setTs .getcWait).setInput [0xFF]).rs = .running ∧
      (((pre 0x3001 0).setTs .getcWait).setInput [0xFF]).land.input = 0xFF :: [] ∧
      (((pre 0x3001 0).setTs .inWait).setInput [0]).ts = .inWait ∧
      ({ (pre 0x3001 0).setTs .inWait with arrivals := [[0]] } : State).land.input = 0 :: [] := by decide

theorem witness_WaitingRoutinesHoldWithoutInput :
    ((pre 0x3001 0).setTs .inWait).rs = .running ∧ ((pre 0x3001 0).setTs .inWait).ts = .inWait ∧
      ((pre 0x3001 0).setTs .inWait).land.input = [] ∧ ((pre 0x3001 0).setTs .getcWait).ts = .getcWait := by decide

theorem witness_StringRoutinesEmitOneWord :
    ((pre 0x3001 0).setTs (.putsRun 0x4000)).rs = .running ∧
      (memRead 0x4000 ((pre 0x3001 0).setTs (.putsRun 0x4000)).land).1 = 0 ∧
      (memRead 0x4000 (((pre 0x3001 0).setTs (.putspRun 0x4000)).poke 0x4000 0x0042).land).1 ≠ 0 ∧
      (0x0042 : Word).toNat / 256 = 0 ∧ (0x0100 : Word).toNat / 256 ≠ 0 := by decide

/-- The string of V73, and the empty string of V74, for PUTS; the string of V76 for PUTSP. -/
theorem witness_PutsEmitsTheWholeString :
    let s := ((((pre 0x3001 0).setTs (.putsRun 0x4000)).poke 0x4000 0x0148).poke 0x4001 0x4100).poke 0x4002 0x0049
    let ws : List Word := [0x0148, 0x4100, 0x0049]
    s.rs = .running ∧ s.ts = .putsRun 0x4000 ∧
      (∀ k w, ws[k]? = some w → s.peek (0x4000 + BitVec.ofNat 16 k) = w ∧ w ≠ 0) ∧
      s.peek (0x4000 + BitVec.ofNat 16 ws.length) = 0 ∧
      (∀ k, k ≤ ws.length → (0x4000 : Word) + BitVec.ofNat 16 k ≠ s.cfg.kbsrAddr) ∧ s.peek 0x5000 = 0 := by
  refine ⟨by decide, by decide, ?_, by decide, by decide, by decide⟩
  intro k w h
  match k with
  | 0 => cases h; decide
  | 1 => cases h; decide
  | 2 => cases h; decide
  | k + 3 => simp at h

theorem witness_PutspEmitsTheWholeString :
    let s := (((pre 0x3001 0).setTs (.putspRun 0x4000)).poke 0x4000 0x6548).poke 0x4001 0x006C
    let ws : List Word := [0x6548, 0x006C]
    s.rs = .running ∧ s.ts = .putspRun 0x4000 ∧
      (∀ k w, ws[k]? = some w → s.peek (0x4000 + BitVec.ofNat 16 k) = w ∧ w ≠ 0) ∧
      s.peek (0x4000 + BitVec.ofNat 16 ws.length) = 0 ∧
      ∀ k, k ≤ ws.length → (0x4000 : Word) + BitVec.ofNat 16 k ≠ s.cfg.kbsrAddr := by
  refine ⟨by decide, by decide, ?_, by decide, by decide⟩
  intro k w h
  match k with
  | 0 => cases h; decide
  | 1 => cases h; decide
  | k + 2 => simp at h

theorem witness_IllegalOpcodeChangesOnlyThePc :
    (pre 0x3000 0x8FFF).cfg.wf ∧ (pre 0x3000 0x8FFF).rs = .running ∧ (pre 0x3000 0x8FFF).ts = .idle ∧
      (pre 0x3000 0x8FFF).pc ≠ (pre 0x3000 0x8FFF).cfg.kbsrAddr ∧
      ((pre 0x3000 0x8FFF).peek 0x3000).extractLsb' 12 4 = 0b1000#4 ∧
      ((pre 0x3005 0xD000).peek 0x3005).extractLsb' 12 4 = 0b1101#4 := by decide

theorem witness_StepRunsTheDecodedInstruction :
    (pre 0x3000 0x1061).rs = .running ∧ (pre 0x3000 0x1061).ts = .idle ∧
      decode (pre 0x3000 0x1061).cfg.opcodeMap (fetch (pre 0x3000 0x1061).land).1 = .ok (.addImm .r0 .r1 1) := by decide

theorem witness_OnlyARunningMachineSteps :
    State.reset.cfg.wf ∧ State.reset.rs = .running ∧ ((pre 0x3001 0).setTs .inWait).rs = .running ∧
      ((pre 0x3001 0).setTs .inWait).cfg.wf ∧ (State.reset.setRs .halted).rs = .halted ∧
      (State.reset.setRs (.faulted .illegalOpcode 0x8000)).rs = .faulted .illegalOpcode 0x8000 := by decide

/-- Each row of the table of run-state transitions. -/
theorem witness_RunStateChangesOnlyByTheTable :
    seen (pre 0x3000 0x1061) (fun t => t.rs) = some .running ∧ seen (pre 0x3000 0xF025) (fun t => t.rs) = some .halted ∧
      seen (pre 0x3000 0x8001) (fun t => t.rs) = some (.faulted .illegalOpcode 0x8001) ∧
      seen (pre 0x3000 0xD001) (fun t => t.rs) = some (.faulted .illegalOpcode 0xD001) ∧
      seen (pre 0x3000 0xFF26) (fun t => t.rs) = some (.faulted .unrecognizedTrap 0xFF26) := by decide

/-- A step that emits, in each of the ways there are. -/
theorem witness_OnlyTrapRoutinesEmit :
    seen (pre 0x3000 0xF021) (fun t => t.output) ≠ some (pre 0x3000 0xF021).output ∧
      seen (pre 0x3000 0xF023) (fun t => t.output) ≠ some [] ∧ seen (pre 0x3000 0xF025) (fun t => t.output) ≠ some [] ∧
      seen (((pre 0x3001 0).setTs .inWait).setInput [1]) (fun t => t.output) ≠ some [] ∧
      seen (((pre 0x3001 0).setTs (.putsRun 0x4000)).poke 0x4000 1) (fun t => t.output) ≠ some [] ∧
      seen (((pre 0x3001 0).setTs (.putspRun 0x4000)).poke 0x4000 1) (fun t => t.output) ≠ some [] := by decide

/-- A step that takes a byte, adds one, and leaves the parameters. -/
theorem witness_OutputOnlyGrows_InputIsTakenInOrder_ParametersNeverChange :
    seen (((pre 0x3001 0).setTs .inWait).setInput [1, 2]) (fun t => (t.output, t.input)) = some ([1], [2]) := by decide

theorem witness_ArrivalsAreHostSupplies :
    ({ pre 0x3001 0 with arrivals := [[1], [2]] } : State).rs = .running ∧
      ({ pre 0x3001 0 with arrivals := [[1], [2]] } : State).arrivals = [1] :: [[2]] := by decide

/-- A step from a state of the invariant, running and with a routine in progress. -/
theorem witness_StepKeepsTheInvariant :
    (pre 0x3000 0xF025).Inv ∧ (post (pre 0x3000 0xF025)).isSome ∧ ((pre 0x3000 0).setTs (.putsRun 0x4000)).Inv ∧
      (post ((pre 0x3000 0).setTs (.putsRun 0x4000))).isSome :=
  ⟨⟨by decide, by decide, by decide⟩, by decide, ⟨by decide, by decide, by decide⟩, by decide⟩

theorem witness_PowerOnMeetsTheInvariant : Config.default.wf ∧ { Config.default with opcodeMap := otherMap }.wf := by decide

/-- An image, and one that is cut at the top of memory. -/
theorem witness_ImageLoadWritesExactlyItsWords :
    ([0x30, 0x00, 0xF0, 0x25] : List Byte)[2 * 1]? = some 0xF0 ∧ ([0x30, 0x00, 0xF0, 0x25] : List Byte)[2 * 1 + 1]? = some 0x25 ∧
      imageWords [0xFF, 0xFF, 0x00, 0x01, 0x00, 0x02] = 0xFFFF :: [1, 2] ∧ ([1, 2] : List Word)[0]? = some 1 ∧
      (0xFFFF : Word).toNat + 0 < 65536 ∧ (0xFFFE : Word).toNat < (0xFFFF : Word).toNat ∧
      imageWords [0x30, 0x00, 0xF0, 0x25] = 0x3000 :: [0xF025] ∧
      (0x3000 : Word).toNat + ([0xF025] : List Word).length ≤ (0x3001 : Word).toNat ∧
      ([0x30, 0x00, 0xF0, 0x25] : List Byte).length = 2 * 2 ∧ ([] : List Byte).length = 2 * 0 := by decide

theorem witness_OddImageFilesLoadNothingMore :
    ([] : List Byte).length = 2 * 0 ∧ ([0x30, 0x00] : List Byte).length = 2 * 1 ∧ ([0x30, 0x00] : List Byte).length ≤ 2 ∧
      ([0x30] : List Byte).length ≤ 2 := by decide

theorem witness_ExitStatusIsZeroOnlyOnHalt :
    State.reset.rs = .running ∧ (State.reset.setRs .halted).rs = .halted ∧ State.reset.cfg.wf ∧
      exitStatus (State.reset.setRs .halted) = some 0 ∧
      (State.reset.setRs (.faulted .illegalOpcode 1)).rs = .faulted .illegalOpcode 1 ∧
      (State.reset.setRs (.faulted .unrecognizedTrap 1)).rs = .faulted .unrecognizedTrap 1 := by decide

end Sys2Proof.Tests
end

section
/-!
The primitives of 00_scope.md on fields and bytes: what `sext` (R6) and `zext` (R7) give as a number and bit by bit,
each said once; later proofs cite these and do not unfold the two.
-/
namespace Sys2Proof

section SignExtension
variable {n : Nat} (f : BitVec n)

theorem sext_getLsbD_of_lt {i : Nat} (hn : n ≤ 16) (hi : i < n) : (sext f).getLsbD i = f.getLsbD i := by
  have hi16 : i < 16 := by omega
  rw [sext, BitVec.getLsbD_signExtend]
  simp [hi, hi16]

theorem sext_getLsbD_of_ge {i : Nat} (hi : n ≤ i) (hi16 : i < 16) :
    (sext f).getLsbD i = f.getLsbD (n - 1) := by
  rw [sext, BitVec.getLsbD_signExtend, BitVec.msb_eq_getLsbD_last]
  simp [hi.not_gt, hi16]

/-- The sign bit weighs `2 ^ 16 - 2 ^ n`: the bits from `n` to 15 that it fills. -/
theorem sext_toNat (hn : n ≤ 16) :
    (sext f).toNat = f.toNat + if f.getLsbD (n - 1) then 65536 - 2 ^ n else 0 := by
  simp [sext, BitVec.toNat_signExtend, BitVec.toNat_setWidth_of_le hn, BitVec.msb_eq_getLsbD_last]

theorem sext_toNat_of_nonneg (hn : n ≤ 16) (hs : f.getLsbD (n - 1) = false) : (sext f).toNat = f.toNat := by
  simp [sext_toNat f hn, hs]

/-- The sum is already below 65536, since the field is below `2 ^ n`: the modulo of R6's number takes nothing off. -/
theorem sext_toNat_of_neg (hn : n ≤ 16) (hs : f.getLsbD (n - 1) = true) :
    (sext f).toNat = (f.toNat + 65536 - 2 ^ n) % 65536 := by
  have hpow : 2 ^ n ≤ 65536 := Nat.pow_le_pow_right (by decide) hn
  have hlt : f.toNat < 2 ^ n := f.isLt
  rw [sext_toNat f hn, if_pos hs]
  omega

end SignExtension

section ZeroExtension
variable (b : Byte)

@[simp] theorem zext_toNat : (zext b).toNat = b.toNat :=
  BitVec.toNat_setWidth_of_le (by decide)

theorem zext_getLsbD_of_lt {i : Nat} (hi : i < 8) : (zext b).getLsbD i = b.getLsbD i := by
  have hi16 : i < 16 := by omega
  simp [zext, hi16]

theorem zext_getLsbD_of_ge {i : Nat} (hi : 8 ≤ i) : (zext b).getLsbD i = false := by
  simp [zext, BitVec.getLsbD_setWidth, BitVec.getLsbD_of_ge b i hi]

end ZeroExtension

/-- Settles O7: the number by the sign bit, the bits below and from the width, and the three facts of `zext`. -/
theorem extensionsKeepTheValue : Obligations.ExtensionsKeepTheValue := by
  refine ⟨fun n f _ hn => ⟨?_, ?_, ?_, ?_⟩, fun b => ⟨?_, ?_, ?_⟩⟩
  · exact sext_toNat_of_nonneg f hn
  · exact sext_toNat_of_neg f hn
  · exact fun i hi => sext_getLsbD_of_lt f hn hi
  · exact fun i hi hi16 => sext_getLsbD_of_ge f hi hi16
  · exact zext_toNat b
  · exact fun i hi => zext_getLsbD_of_lt b hi
  · exact fun i hi => zext_getLsbD_of_ge b hi

end Sys2Proof
end

section
/-!
The state (10_state.md): what writing a register and setting the flags leave unchanged (R10, R15), and the state the
cycle begins in, one lemma per field (R26); later proofs cite these and do not unfold the updates.
-/
namespace Sys2Proof.Machine

section Updates
variable (s : State)

/-! ### Writing a register -/

theorem State.setReg_regsSameBut (r : Reg) (v : Word) : RegsSameBut r s (s.setReg r v) := fun _ hq =>
  State.setReg_reg_of_ne s hq v

theorem State.setReg_restSame (r : Reg) (v : Word) : RestSame s (s.setReg r v) where
  mem := fun _ => State.setReg_peek ..
  control := ⟨State.setReg_rs .., State.setReg_ts ..⟩
  streams := ⟨State.setReg_input .., State.setReg_output ..⟩
  host := ⟨State.setReg_arrivals .., State.setReg_cfg ..⟩

/-! ### Writing the flags -/

theorem State.setCond_regsSame (c : Cond) : RegsSame s (s.setCond c) := fun _ => State.setCond_reg ..

theorem State.setCond_restSame (c : Cond) : RestSame s (s.setCond c) where
  mem := fun _ => State.setCond_peek ..
  control := ⟨State.setCond_rs .., State.setCond_ts ..⟩
  streams := ⟨State.setCond_input .., State.setCond_output ..⟩
  host := ⟨State.setCond_arrivals .., State.setCond_cfg ..⟩

theorem setcc_flagsFrom (v : Word) : FlagsFrom (setcc v s).cond v := flagsFrom_condOf v

end Updates

/-- Settles O8: the flag is `condOf v`, and `setcc` is a write of `cond` alone. -/
theorem setccFollowsTheWord : Obligations.SetccFollowsTheWord := fun v s =>
  ⟨setcc_flagsFrom s v, State.setCond_regsSame s (condOf v), State.setCond_pc s (condOf v),
    State.setCond_restSame s (condOf v)⟩

/-! ### The state when the cycle begins -/

theorem loadImages_concat (m : Memory) (images : List (List Byte)) (image : List Byte) :
    loadImages m (images ++ [image]) = loadImage (loadImages m images) image := List.foldl_concat ..

section PowerOn
variable (c : Config) (images : List (List Byte)) (input : List Byte) (arrivals : List (List Byte))

@[simp] theorem State.powerOn_reg (r : Reg) : (State.powerOn c images input arrivals).reg r = 0x0000 := by
  cases r <;> rfl

@[simp] theorem State.powerOn_pc : (State.powerOn c images input arrivals).pc = c.pcStart := rfl

@[simp] theorem State.powerOn_cond : (State.powerOn c images input arrivals).cond = c.condReset := rfl

@[simp] theorem State.powerOn_mem : (State.powerOn c images input arrivals).mem = loadImages [] images := rfl

@[simp] theorem State.powerOn_rs : (State.powerOn c images input arrivals).rs = .running := rfl

@[simp] theorem State.powerOn_ts : (State.powerOn c images input arrivals).ts = .idle := rfl

@[simp] theorem State.powerOn_input : (State.powerOn c images input arrivals).input = input := rfl

@[simp] theorem State.powerOn_output : (State.powerOn c images input arrivals).output = [] := rfl

@[simp] theorem State.powerOn_arrivals : (State.powerOn c images input arrivals).arrivals = arrivals := rfl

@[simp] theorem State.powerOn_cfg : (State.powerOn c images input arrivals).cfg = c := rfl

/-- Memory is zero before the first image. -/
theorem State.powerOn_peek_of_no_image (a : Word) : (State.powerOn c [] input arrivals).peek a = 0x0000 := rfl

/-- Each further image is loaded over what the ones before it left (R166). -/
theorem State.powerOn_mem_concat (image : List Byte) :
    (State.powerOn c (images ++ [image]) input arrivals).mem =
      loadImage (State.powerOn c images input arrivals).mem image := by
  simp only [State.powerOn_mem, loadImages_concat]

end PowerOn

theorem State.reset_eq_powerOn : State.reset = State.powerOn .default [] [] [] := rfl

/-- Settles O57, row by row of R26. -/
theorem powerOnGivesTheResetValues : Obligations.PowerOnGivesTheResetValues := fun c images input arrivals =>
  ⟨State.powerOn_reg c images input arrivals, State.powerOn_pc .., State.powerOn_cond ..,
    State.powerOn_peek_of_no_image c input arrivals, State.powerOn_mem_concat c images input arrivals,
    State.powerOn_rs .., State.powerOn_ts .., State.powerOn_input .., State.powerOn_output ..,
    State.reset_eq_powerOn⟩

/-- Settles O9: field codes and registers are in bijection, reset is a power-on, and a register reads the last write
whichever of the eight it is. -/
theorem registersHoldTheLastWord : Obligations.RegistersHoldTheLastWord := by
  refine ⟨Reg.toBits_ofBits, Reg.ofBits_toBits, fun r => ?reset, fun s r v => ⟨?written, ?others, ?pc, ?cond, ?rest⟩⟩
  case reset => rw [State.reset_eq_powerOn, State.powerOn_reg]
  case written => exact State.setReg_reg_self s r v
  case others => exact State.setReg_regsSameBut s r v
  case pc => exact State.setReg_pc s r v
  case cond => exact State.setReg_cond s r v
  case rest => exact State.setReg_restSame s r v

end Sys2Proof.Machine
end

section
/-!
The bus (20_memory.md): what a store of one Word leaves unchanged, said once for `poke`; what a bus read does at the
keyboard-status address and at every other (R30), and what a bus write does (R33). Later proofs cite these and unfold
neither.
-/
namespace Sys2Proof.Machine

/-! ### Storing a Word -/

section Store
variable (s : State) (a v : Word)

theorem State.poke_memSameBut : MemSameBut a s (s.poke a v) := fun _ hb => State.poke_peek_of_ne s v hb

theorem State.poke_regsSame : RegsSame s (s.poke a v) := fun _ => State.poke_reg ..

theorem State.poke_controlSame : ControlSame s (s.poke a v) where
  rs := State.poke_rs ..
  ts := State.poke_ts ..

theorem State.poke_streamsSame : StreamsSame s (s.poke a v) where
  input := State.poke_input ..
  output := State.poke_output ..

theorem State.poke_hostSame : HostSame s (s.poke a v) where
  arrivals := State.poke_arrivals ..
  cfg := State.poke_cfg ..

end Store

/-! ### The bus read -/

section Read
variable {a : Word} {s : State}

theorem memRead_of_eq (h : a = s.cfg.kbsrAddr) : memRead a s = ((keyboardPoll s).peek a, keyboardPoll s) := by
  rw [memRead, pollIfStatus_of_eq h]

theorem memRead_of_ne (h : a ≠ s.cfg.kbsrAddr) : memRead a s = (s.peek a, s) := by
  rw [memRead, pollIfStatus_of_ne h]

end Read

/-- Settles O11: the two cases of the address. -/
theorem busReadPollsOnlyTheStatusCell : Obligations.BusReadPollsOnlyTheStatusCell := fun _ _ =>
  ⟨memRead_of_eq, memRead_of_ne⟩

/-! ### The bus write -/

/-- A bus write is a plain store at every address, the device cells included (R33). -/
@[simp] theorem memWrite_eq_poke (a v : Word) (s : State) : memWrite a v s = s.poke a v := rfl

/-- Settles O14: a bus write is a store, which changes the addressed Word alone. -/
theorem busWriteStoresExactlyOneWord : Obligations.BusWriteStoresExactlyOneWord := by
  intro a v s
  rw [memWrite_eq_poke]
  refine ⟨?stored, ?others, ?regs, ?pc, ?cond, ?control, ?streams, ?host⟩
  case stored => exact State.poke_peek_self s a v
  case others => exact State.poke_memSameBut s a v
  case regs => exact State.poke_regsSame s a v
  case pc => exact State.poke_pc s a v
  case cond => exact State.poke_cond s a v
  case control => exact State.poke_controlSame s a v
  case streams => exact State.poke_streamsSame s a v
  case host => exact State.poke_hostSame s a v

end Sys2Proof.Machine
end

section
/-!
The operate instructions (40_operate.md): what the shared ending `writeResult` does beside the destination, said once,
and for each of ADD, AND and NOT the instruction its Words decode to and the Word it writes (R70 to R72).
-/
namespace Sys2Proof.Machine

/-! ### The shared ending: the flag of the destination, and the frame -/

section Result
variable (dr : Reg) (v : Word) (s : State)

theorem writeResult_flagsFrom : FlagsFrom (writeResult dr v s).cond ((writeResult dr v s).reg dr) := by
  rw [writeResult_reg_self, writeResult_cond]
  exact flagsFrom_condOf v

theorem writeResult_regsSameBut : RegsSameBut dr s (writeResult dr v s) := fun _ hq => writeResult_reg_of_ne s v hq

theorem writeResult_restSame : RestSame s (writeResult dr v s) where
  mem := fun x => writeResult_peek s v x dr
  control := ⟨writeResult_rs .., writeResult_ts ..⟩
  streams := ⟨writeResult_input .., writeResult_output ..⟩
  host := ⟨writeResult_arrivals .., writeResult_cfg ..⟩

/-- All that an instruction ending in `writeResult` does beside the value of its destination (R16). -/
theorem writeResult_flags_and_frame :
    FlagsFrom (writeResult dr v s).cond ((writeResult dr v s).reg dr) ∧ RegsSameBut dr s (writeResult dr v s) ∧
      (writeResult dr v s).pc = s.pc ∧ RestSame s (writeResult dr v s) :=
  ⟨writeResult_flagsFrom dr v s, writeResult_regsSameBut dr v s, writeResult_pc s v dr, writeResult_restSame dr v s⟩

end Result

/-! ### The Words: bit 5 selects the form of ADD and AND, NOT has one form -/

section Words
variable (w : Word)

theorem decodeAs_add : decodeAs .add w = if w.getLsbD 5 = false
    then .addReg (fieldReg11 w) (fieldReg8 w) (fieldReg2 w)
    else .addImm (fieldReg11 w) (fieldReg8 w) (fieldImm5 w) := by
  rw [decodeAs]
  cases w.getLsbD 5 <;> rfl

theorem decodeAs_and : decodeAs .and w = if w.getLsbD 5 = false
    then .andReg (fieldReg11 w) (fieldReg8 w) (fieldReg2 w)
    else .andImm (fieldReg11 w) (fieldReg8 w) (fieldImm5 w) := by
  rw [decodeAs]
  cases w.getLsbD 5 <;> rfl

theorem decodeAs_not : decodeAs .not w = .not (fieldReg11 w) (fieldReg8 w) := rfl

end Words

/-! ### The body of each form is its operation and the shared ending -/

section Bodies
variable (dr sr1 sr2 : Reg) (imm5 : BitVec 5) (s : State)

theorem exec_addReg : exec (.addReg dr sr1 sr2) s = .next (writeResult dr (s.reg sr1 + s.reg sr2) s) := rfl

theorem exec_addImm : exec (.addImm dr sr1 imm5) s = .next (writeResult dr (s.reg sr1 + sext imm5) s) := rfl

theorem exec_andReg : exec (.andReg dr sr1 sr2) s = .next (writeResult dr (s.reg sr1 &&& s.reg sr2) s) := rfl

theorem exec_andImm : exec (.andImm dr sr1 imm5) s = .next (writeResult dr (s.reg sr1 &&& sext imm5) s) := rfl

theorem exec_not : exec (.not dr sr1) s = .next (writeResult dr (~~~(s.reg sr1)) s) := rfl

end Bodies

/-! ### The destination, by the operation on Words -/

section Destination
variable (dr : Reg) (x y : Word) (s : State)

theorem writeResult_add_toNat : ((writeResult dr (x + y) s).reg dr).toNat = (x.toNat + y.toNat) % 65536 := by
  rw [writeResult_reg_self]
  exact BitVec.toNat_add x y

theorem writeResult_and_getLsbD (i : Nat) :
    ((writeResult dr (x &&& y) s).reg dr).getLsbD i = (x.getLsbD i && y.getLsbD i) := by
  rw [writeResult_reg_self, BitVec.getLsbD_and]

theorem writeResult_not_toNat : ((writeResult dr (~~~x) s).reg dr).toNat = 0xFFFF - x.toNat := by
  rw [writeResult_reg_self]
  exact BitVec.toNat_not

theorem writeResult_not_getLsbD {i : Nat} (hi : i < 16) :
    ((writeResult dr (~~~x) s).reg dr).getLsbD i = !x.getLsbD i := by
  rw [writeResult_reg_self, BitVec.getLsbD_not, decide_eq_true hi, Bool.true_and]

end Destination

/-- Settles O19: bit 5 selects the form, and either form writes a sum of Words, which wraps at 65536. -/
theorem addWrapsAndSetsFlags : Obligations.AddWrapsAndSetsFlags := by
  refine ⟨fun m w hm hw => ?words, fun s dr sr1 sr2 => ?register, fun s dr sr1 imm5 => ?immediate⟩
  case words => exact (decode_of_fieldOpcode (o := .add) hm hw).trans (congrArg _ (decodeAs_add w))
  case register =>
    exact ⟨_, exec_addReg dr sr1 sr2 s, writeResult_add_toNat .., writeResult_flags_and_frame ..⟩
  case immediate =>
    exact ⟨_, exec_addImm dr sr1 imm5 s, writeResult_add_toNat .., writeResult_flags_and_frame ..⟩

/-- Settles O20: bit 5 selects the form, and either form writes an and of Words, bit by bit. -/
theorem andIsBitwiseAndSetsFlags : Obligations.AndIsBitwiseAndSetsFlags := by
  refine ⟨fun m w hm hw => ?words, fun s dr sr1 sr2 => ?register, fun s dr sr1 imm5 => ?immediate⟩
  case words => exact (decode_of_fieldOpcode (o := .and) hm hw).trans (congrArg _ (decodeAs_and w))
  case register =>
    exact ⟨_, exec_andReg dr sr1 sr2 s, fun i _ => writeResult_and_getLsbD dr _ _ s i, writeResult_flags_and_frame ..⟩
  case immediate =>
    exact ⟨_, exec_andImm dr sr1 imm5 s, fun i _ => writeResult_and_getLsbD dr _ _ s i, writeResult_flags_and_frame ..⟩

/-- Settles O21: no bit of [5:0] is in a field of NOT, and the complement is taken as a number and bit by bit. -/
theorem notComplementsAndSetsFlags : Obligations.NotComplementsAndSetsFlags := by
  refine ⟨fun m w hm hw => ?words, fun s dr sr => ?body⟩
  case words => exact (decode_of_fieldOpcode (o := .not) hm hw).trans (congrArg _ (decodeAs_not w))
  case body =>
    exact ⟨_, exec_not dr sr s, writeResult_not_toNat .., fun _ hi => writeResult_not_getLsbD dr _ s hi,
      writeResult_flags_and_frame ..⟩

end Sys2Proof.Machine
end

section
/-!
Control transfer (41_control.md): what writing `pc` and the link of R11 leave unchanged, said once and composed into
the frame of a linked jump to any target, and for JSR the instruction its Words decode to and its target (R82).
-/
namespace Sys2Proof.Machine

/-! ### Frames of two updates in a row -/

section Composition
variable {s t u : State}

theorem RegsSameBut.trans_regsSame {r : Reg} (h : RegsSameBut r s t) (h' : RegsSame t u) : RegsSameBut r s u :=
  fun q hq => (h' q).trans (h q hq)

theorem RestSame.trans (h : RestSame s t) (h' : RestSame t u) : RestSame s u where
  mem := fun x => (h'.mem x).trans (h.mem x)
  control := ⟨h'.control.rs.trans h.control.rs, h'.control.ts.trans h.control.ts⟩
  streams := ⟨h'.streams.input.trans h.streams.input, h'.streams.output.trans h.streams.output⟩
  host := ⟨h'.host.arrivals.trans h.host.arrivals, h'.host.cfg.trans h.host.cfg⟩

end Composition

/-! ### The jump, the link, and the linked jump to any target -/

section Jump
variable (s : State) (target : Word)

theorem State.setPc_regsSame : RegsSame s (s.setPc target) := fun _ => State.setPc_reg ..

theorem State.setPc_restSame : RestSame s (s.setPc target) where
  mem := fun _ => State.setPc_peek ..
  control := ⟨State.setPc_rs .., State.setPc_ts ..⟩
  streams := ⟨State.setPc_input .., State.setPc_output ..⟩
  host := ⟨State.setPc_arrivals .., State.setPc_cfg ..⟩

@[simp] theorem linkReturn_reg_r7 : (linkReturn s).reg .r7 = s.pc := State.setReg_reg_self ..

@[simp] theorem linkReturn_pc : (linkReturn s).pc = s.pc := State.setReg_pc ..

@[simp] theorem linkReturn_cond : (linkReturn s).cond = s.cond := State.setReg_cond ..

theorem linkReturn_regsSameBut : RegsSameBut .r7 s (linkReturn s) := State.setReg_regsSameBut s .r7 s.pc

theorem linkReturn_restSame : RestSame s (linkReturn s) := State.setReg_restSame ..

theorem linkReturn_setPc_reg_r7 : ((linkReturn s).setPc target).reg .r7 = s.pc := by
  rw [State.setPc_reg, linkReturn_reg_r7]

theorem linkReturn_setPc_cond : ((linkReturn s).setPc target).cond = s.cond := by
  rw [State.setPc_cond, linkReturn_cond]

theorem linkReturn_setPc_regsSameBut : RegsSameBut .r7 s ((linkReturn s).setPc target) :=
  (linkReturn_regsSameBut s).trans_regsSame (State.setPc_regsSame _ target)

theorem linkReturn_setPc_restSame : RestSame s ((linkReturn s).setPc target) :=
  (linkReturn_restSame s).trans (State.setPc_restSame _ target)

end Jump

/-! ### JSR: bit 11 set, and a target relative to the `pc` that the link does not change -/

section Jsr
variable (w : Word) (off11 : BitVec 11) (s : State)

theorem decodeAs_jsr_of_bit11 (h : w.getLsbD 11 = true) : decodeAs .jsr w = .jsr (fieldOff11 w) := if_pos h

theorem exec_jsr : exec (.jsr off11) s = .next ((linkReturn s).setPc (pcRelative off11 (linkReturn s))) := rfl

theorem pcRelative_toNat {n : Nat} (off : BitVec n) :
    (pcRelative off s).toNat = (s.pc.toNat + (sext off).toNat) % 65536 :=
  BitVec.toNat_add s.pc (sext off)

theorem jsr_target_toNat : ((linkReturn s).setPc (pcRelative off11 (linkReturn s))).pc.toNat =
    (s.pc.toNat + (sext off11).toNat) % 65536 := by
  rw [State.setPc_pc, pcRelative_toNat, linkReturn_pc]

end Jsr

/-- Settles O25: bit 11 selects the form, and JSR is a linked jump whose target is a sum of Words, which wraps at
65536. -/
theorem jsrLinksAndJumps : Obligations.JsrLinksAndJumps := by
  refine ⟨fun m w hm hw hbit => ?words, fun s off11 => ⟨_, exec_jsr off11 s, ?link, ?target, ?flags, ?regs, ?rest⟩⟩
  case words => exact (decode_of_fieldOpcode (o := .jsr) hm hw).trans (congrArg _ (decodeAs_jsr_of_bit11 w hbit))
  case link => exact linkReturn_setPc_reg_r7 ..
  case target => exact jsr_target_toNat off11 s
  case flags => exact linkReturn_setPc_cond ..
  case regs => exact linkReturn_setPc_regsSameBut s _
  case rest => exact linkReturn_setPc_restSame ..

end Sys2Proof.Machine
end

section
/-!
Loads and LEA (42_load.md): what a bus read leaves unchanged and how frames compose before a result, said once; then
the shared ending `loadFrom` at any address (R94), and for each of LD, LDI, LDR and LEA the instruction its Words decode
to and the address it reads or writes (R90 to R93).
-/
namespace Sys2Proof.Machine

/-! ### The frame of a bus read: all but memory and input stays, the keyboard poll included -/

section ReadFrame
variable (a : Word) (s : State)

theorem memRead_regsSame : RegsSame s (memRead a s).2 := fun _ => pollIfStatus_reg ..

theorem memRead_pc : (memRead a s).2.pc = s.pc := pollIfStatus_pc ..

theorem memRead_output : (memRead a s).2.output = s.output := pollIfStatus_output ..

theorem memRead_controlSame : ControlSame s (memRead a s).2 where
  rs := pollIfStatus_rs ..
  ts := pollIfStatus_ts ..

theorem memRead_hostSame : HostSame s (memRead a s).2 where
  arrivals := pollIfStatus_arrivals ..
  cfg := pollIfStatus_cfg ..

end ReadFrame

section Composition
variable {s t u : State}

theorem RegsSame.trans_regsSameBut {r : Reg} (h : RegsSame s t) (h' : RegsSameBut r t u) : RegsSameBut r s u :=
  fun q hq => (h' q hq).trans (h q)

theorem ControlSame.trans (h : ControlSame s t) (h' : ControlSame t u) : ControlSame s u where
  rs := h'.rs.trans h.rs
  ts := h'.ts.trans h.ts

theorem HostSame.trans (h : HostSame s t) (h' : HostSame t u) : HostSame s u where
  arrivals := h'.arrivals.trans h.arrivals
  cfg := h'.cfg.trans h.cfg

end Composition

/-! ### The shared ending of the loads, at any address -/

section LoadEnding
variable (dr : Reg) {ea : Word} {s : State}

/-- Away from the keyboard-status address no poll happens, and a load is a plain read and a result. -/
theorem loadFrom_of_ne (h : ea ≠ s.cfg.kbsrAddr) : loadFrom dr ea s = writeResult dr (s.peek ea) s := by
  rw [loadFrom, memRead_of_ne h]

theorem loadFrom_plain (h : ea ≠ s.cfg.kbsrAddr) :
    (loadFrom dr ea s).reg dr = s.peek ea ∧ MemSame s (loadFrom dr ea s) ∧ (loadFrom dr ea s).input = s.input := by
  rw [loadFrom_of_ne dr h]
  exact ⟨writeResult_reg_self .., (writeResult_restSame ..).mem, writeResult_input ..⟩

variable (ea s)

theorem loadFrom_flagsFrom : FlagsFrom (loadFrom dr ea s).cond ((loadFrom dr ea s).reg dr) := writeResult_flagsFrom ..

/-- `loadFrom_spec` with the memory word by word, the flag as a property of the destination, and the plain case. -/
theorem loadFrom_result_and_frame :
    (loadFrom dr ea s).reg dr = (memRead ea s).1 ∧ FlagsFrom (loadFrom dr ea s).cond ((loadFrom dr ea s).reg dr) ∧
      RegsSameBut dr s (loadFrom dr ea s) ∧ (loadFrom dr ea s).pc = s.pc ∧
      MemSame (memRead ea s).2 (loadFrom dr ea s) ∧ (loadFrom dr ea s).input = (memRead ea s).2.input ∧
      (ea ≠ s.cfg.kbsrAddr →
        (loadFrom dr ea s).reg dr = s.peek ea ∧ MemSame s (loadFrom dr ea s) ∧ (loadFrom dr ea s).input = s.input) ∧
      (loadFrom dr ea s).output = s.output ∧ ControlSame s (loadFrom dr ea s) ∧ HostSame s (loadFrom dr ea s) := by
  obtain ⟨hreg, -, hregs, hpc, hmem, hinput, hframe⟩ := loadFrom_spec dr ea s
  exact ⟨hreg, loadFrom_flagsFrom dr ea s, hregs, hpc, fun x => congrArg (·.read x) hmem, hinput, loadFrom_plain dr,
    hframe⟩

end LoadEnding

/-! ### The pointer of LDI -/

theorem pointerRead_eq (off9 : BitVec 9) (s : State) : pointerRead off9 s = memRead (s.pc + sext off9) s := rfl

theorem pointerRead_of_ne {off9 : BitVec 9} {s : State} (h : s.pc + sext off9 ≠ s.cfg.kbsrAddr) :
    pointerRead off9 s = (s.peek (s.pc + sext off9), s) := by
  rw [pointerRead_eq, memRead_of_ne h]

/-! ### The Words and the bodies -/

section Words
variable (w : Word)

theorem decodeAs_ld : decodeAs .ld w = .ld (fieldReg11 w) (fieldOff9 w) := rfl

theorem decodeAs_ldi : decodeAs .ldi w = .ldi (fieldReg11 w) (fieldOff9 w) := rfl

theorem decodeAs_ldr : decodeAs .ldr w = .ldr (fieldReg11 w) (fieldReg8 w) (fieldOff6 w) := rfl

theorem decodeAs_lea : decodeAs .lea w = .lea (fieldReg11 w) (fieldOff9 w) := rfl

end Words

section Bodies
variable (dr base : Reg) (off9 : BitVec 9) (off6 : BitVec 6) (s : State)

theorem exec_ld : exec (.ld dr off9) s = .next (loadFrom dr (s.pc + sext off9) s) := rfl

theorem exec_ldi : exec (.ldi dr off9) s = .next (loadFrom dr (pointerRead off9 s).1 (pointerRead off9 s).2) := rfl

theorem exec_ldr : exec (.ldr dr base off6) s = .next (loadFrom dr (s.reg base + sext off6) s) := rfl

theorem exec_lea : exec (.lea dr off9) s = .next (writeResult dr (s.pc + sext off9) s) := rfl

end Bodies

/-- Settles O27: LD is the shared ending at a `pc`-relative address. -/
theorem loadReadsPcRelative : Obligations.LoadReadsPcRelative := by
  refine ⟨fun m w hm hw => ?words, fun s dr off9 => ?body⟩
  case words => exact (decode_of_fieldOpcode (o := .ld) hm hw).trans (congrArg _ (decodeAs_ld w))
  case body => exact ⟨_, exec_ld dr off9 s, loadFrom_result_and_frame ..⟩

/-- Settles O28: LDI is the shared ending at the pointer, in the state the pointer's own read leaves; that read keeps
all but memory and input, so the two frames compose. -/
theorem loadIndirectReadsTwice : Obligations.LoadIndirectReadsTwice := by
  refine ⟨fun m w hm hw => ?words, fun s off9 => pointerRead_eq off9 s, fun s dr off9 => ?body⟩
  case words => exact (decode_of_fieldOpcode (o := .ldi) hm hw).trans (congrArg _ (decodeAs_ldi w))
  case body =>
    obtain ⟨hreg, hflags, hregs, hpc, hmem, hinput, -, houtput, hcontrol, hhost⟩ :=
      loadFrom_result_and_frame dr (pointerRead off9 s).1 (pointerRead off9 s).2
    refine ⟨_, exec_ldi dr off9 s, hreg, hflags, ?regs, ?pc, hmem, hinput, fun hp hd => ?plain, ?output, ?control,
      ?host⟩
    case regs => exact (memRead_regsSame _ s).trans_regsSameBut hregs
    case pc => exact hpc.trans (memRead_pc ..)
    case plain =>
      rw [pointerRead_of_ne hp]
      exact loadFrom_plain dr hd
    case output => exact houtput.trans (memRead_output ..)
    case control => exact (memRead_controlSame ..).trans hcontrol
    case host => exact (memRead_hostSame ..).trans hhost

/-- Settles O29: LDR is the shared ending at an address summed before the destination is written, whichever register
is the base. -/
theorem loadReadsBasePlusOffset : Obligations.LoadReadsBasePlusOffset := by
  refine ⟨fun m w hm hw => ?words, fun s dr base off6 => ?body⟩
  case words => exact (decode_of_fieldOpcode (o := .ldr) hm hw).trans (congrArg _ (decodeAs_ldr w))
  case body => exact ⟨_, exec_ldr dr base off6 s, loadFrom_result_and_frame ..⟩

/-- Settles O30: LEA writes a sum of Words, which wraps at 65536, and has the ending of the operate instructions, which
accesses no memory. -/
theorem leaComputesTheAddress : Obligations.LeaComputesTheAddress := by
  refine ⟨fun m w hm hw => ?words, fun s dr off9 => ?body⟩
  case words => exact (decode_of_fieldOpcode (o := .lea) hm hw).trans (congrArg _ (decodeAs_lea w))
  case body => exact ⟨_, exec_lea dr off9 s, writeResult_add_toNat .., writeResult_flags_and_frame ..⟩

end Sys2Proof.Machine
end

section
/-!
Stores (43_store.md): each of ST, STI and STR ends in one bus write, whose effect and frame O14 states at every address;
here are the instruction the Words of each decode to and the address it stores at (R100 to R102).
-/
namespace Sys2Proof.Machine

/-! ### The Words and the bodies -/

section Words
variable (w : Word)

theorem decodeAs_st : decodeAs .st w = .st (fieldReg11 w) (fieldOff9 w) := rfl

theorem decodeAs_sti : decodeAs .sti w = .sti (fieldReg11 w) (fieldOff9 w) := rfl

theorem decodeAs_str : decodeAs .str w = .str (fieldReg11 w) (fieldReg8 w) (fieldOff6 w) := rfl

end Words

section Bodies
variable (sr base : Reg) (off9 : BitVec 9) (off6 : BitVec 6) (s : State)

theorem exec_st : exec (.st sr off9) s = .next (memWrite (s.pc + sext off9) (s.reg sr) s) := rfl

theorem exec_sti :
    exec (.sti sr off9) s = .next (memWrite (pointerRead off9 s).1 (s.reg sr) (pointerRead off9 s).2) := rfl

theorem exec_str : exec (.str sr base off6) s = .next (memWrite (s.reg base + sext off6) (s.reg sr) s) := rfl

end Bodies

/-! ### The store through a pointer -/

theorem memRead_cond (a : Word) (s : State) : (memRead a s).2.cond = s.cond := pollIfStatus_cond ..

theorem RegsSame.trans {s t u : State} (h : RegsSame s t) (h' : RegsSame t u) : RegsSame s u :=
  fun q => (h' q).trans (h q)

/-- With the pointer away from the keyboard-status address its read changes nothing, and the store is a plain one at
the Word found there. -/
theorem memWrite_pointerRead_plain {off9 : BitVec 9} {s : State} (v : Word) (h : s.pc + sext off9 ≠ s.cfg.kbsrAddr) :
    (memWrite (pointerRead off9 s).1 v (pointerRead off9 s).2).peek (s.peek (s.pc + sext off9)) = v ∧
      MemSameBut (s.peek (s.pc + sext off9)) s (memWrite (pointerRead off9 s).1 v (pointerRead off9 s).2) ∧
      (memWrite (pointerRead off9 s).1 v (pointerRead off9 s).2).input = s.input := by
  obtain ⟨hstored, hothers, -, -, -, -, hstreams, -⟩ :=
    busWriteStoresExactlyOneWord (s.peek (s.pc + sext off9)) v s
  rw [pointerRead_of_ne h]
  exact ⟨hstored, hothers, hstreams.input⟩

/-- Settles O31: ST is a bus write at a `pc`-relative address. -/
theorem storeWritesPcRelative : Obligations.StoreWritesPcRelative := by
  refine ⟨fun m w hm hw => ?words, fun s sr off9 => ?body⟩
  case words => exact (decode_of_fieldOpcode (o := .st) hm hw).trans (congrArg _ (decodeAs_st w))
  case body => exact ⟨_, exec_st sr off9 s, busWriteStoresExactlyOneWord ..⟩

/-- Settles O32: STI is a bus write at the pointer, in the state the pointer's own read leaves; that read keeps all but
memory and input, so the two frames compose. -/
theorem storeIndirectWritesThroughThePointer : Obligations.StoreIndirectWritesThroughThePointer := by
  refine ⟨fun m w hm hw => ?words, fun s off9 => pointerRead_eq off9 s, fun s sr off9 => ?body⟩
  case words => exact (decode_of_fieldOpcode (o := .sti) hm hw).trans (congrArg _ (decodeAs_sti w))
  case body =>
    obtain ⟨hstored, hothers, hregs, hpc, hcond, hcontrol, hstreams, hhost⟩ :=
      busWriteStoresExactlyOneWord (pointerRead off9 s).1 (s.reg sr) (pointerRead off9 s).2
    refine ⟨_, exec_sti sr off9 s, hstored, hothers, hstreams.input, memWrite_pointerRead_plain (s.reg sr), ?regs, ?pc,
      ?cond, ?output, ?control, ?host⟩
    case regs => exact (memRead_regsSame _ s).trans hregs
    case pc => exact hpc.trans (memRead_pc ..)
    case cond => exact hcond.trans (memRead_cond ..)
    case output => exact hstreams.output.trans (memRead_output ..)
    case control => exact (memRead_controlSame ..).trans hcontrol
    case host => exact (memRead_hostSame ..).trans hhost

/-- Settles O33: STR is a bus write at a base register plus an offset; the base and the stored Word are both read before
the write, so they may be one register. -/
theorem storeWritesBasePlusOffset : Obligations.StoreWritesBasePlusOffset := by
  refine ⟨fun m w hm hw => ?words, fun s sr base off6 => ?body⟩
  case words => exact (decode_of_fieldOpcode (o := .str) hm hw).trans (congrArg _ (decodeAs_str w))
  case body => exact ⟨_, exec_str sr base off6 s, busWriteStoresExactlyOneWord ..⟩

end Sys2Proof.Machine
end

section
/-!
Traps (44_trap.md): what emitting bytes leaves unchanged (10_state.md R25) and how it composes with the link of R110,
for any bytes; then OUT, which emits one byte in the TRAP step (R112).
-/
namespace Sys2Proof.Machine

/-! ### Emitting bytes: all but the output stays -/

section Emit
variable (bytes : List Byte) (s : State)

theorem State.emit_regsSame : RegsSame s (s.emit bytes) := fun _ => State.emit_reg ..

theorem State.emit_memSame : MemSame s (s.emit bytes) := fun _ => State.emit_peek ..

theorem State.emit_controlSame : ControlSame s (s.emit bytes) where
  rs := State.emit_rs ..
  ts := State.emit_ts ..

theorem State.emit_hostSame : HostSame s (s.emit bytes) where
  arrivals := State.emit_arrivals ..
  cfg := State.emit_cfg ..

end Emit

theorem MemSame.trans {s t u : State} (h : MemSame s t) (h' : MemSame t u) : MemSame s u :=
  fun a => (h' a).trans (h a)

/-! ### The link, then bytes emitted -/

section LinkAndEmit
variable (bytes : List Byte) (s : State)

theorem linkReturn_emit_output : ((linkReturn s).emit bytes).output = s.output ++ bytes := by
  rw [State.emit_output, (linkReturn_restSame s).streams.output]

theorem linkReturn_emit_reg_r7 : ((linkReturn s).emit bytes).reg .r7 = s.pc := by
  rw [State.emit_reg, linkReturn_reg_r7]

theorem linkReturn_emit_regsSameBut : RegsSameBut .r7 s ((linkReturn s).emit bytes) :=
  (linkReturn_regsSameBut s).trans_regsSame (State.emit_regsSame bytes _)

theorem linkReturn_emit_pc : ((linkReturn s).emit bytes).pc = s.pc := by
  rw [State.emit_pc, linkReturn_pc]

theorem linkReturn_emit_cond : ((linkReturn s).emit bytes).cond = s.cond := by
  rw [State.emit_cond, linkReturn_cond]

theorem linkReturn_emit_memSame : MemSame s ((linkReturn s).emit bytes) :=
  (linkReturn_restSame s).mem.trans (State.emit_memSame bytes _)

theorem linkReturn_emit_input : ((linkReturn s).emit bytes).input = s.input := by
  rw [State.emit_input, (linkReturn_restSame s).streams.input]

theorem linkReturn_emit_controlSame : ControlSame s ((linkReturn s).emit bytes) :=
  (linkReturn_restSame s).control.trans (State.emit_controlSame bytes _)

theorem linkReturn_emit_hostSame : HostSame s ((linkReturn s).emit bytes) :=
  (linkReturn_restSame s).host.trans (State.emit_hostSame bytes _)

end LinkAndEmit

/-! ### OUT: the byte is that of `x[0]` before the link, which is written to `x[7]` alone -/

theorem lowByte_toNat (w : Word) : (lowByte w).toNat = w.toNat % 256 := by
  simp [lowByte, BitVec.extractLsb'_toNat]

theorem linkReturn_reg_r0 (s : State) : (linkReturn s).reg .r0 = s.reg .r0 :=
  linkReturn_regsSameBut s .r0 (by decide)

theorem exec_out (s : State) : exec .out s = .next ((linkReturn s).emit [lowByte (s.reg .r0)]) := by
  rw [← linkReturn_reg_r0 s]
  rfl

/-- Settles O35: OUT is the link and then one byte emitted; the link writes `x[7]` alone and the emission the output
alone. -/
theorem outEmitsTheLowByte : Obligations.OutEmitsTheLowByte := by
  refine fun s => ⟨_, exec_out s, ⟨lowByte (s.reg .r0), ?byte, ?output⟩, ?link, ?regs, ?pc, ?cond, ?mem, ?input,
    ?control, ?host⟩
  case byte => exact lowByte_toNat (s.reg .r0)
  case output => exact linkReturn_emit_output ..
  case link => exact linkReturn_emit_reg_r7 ..
  case regs => exact linkReturn_emit_regsSameBut _ s
  case pc => exact linkReturn_emit_pc ..
  case cond => exact linkReturn_emit_cond ..
  case mem => exact linkReturn_emit_memSame _ s
  case input => exact linkReturn_emit_input ..
  case control => exact linkReturn_emit_controlSame ..
  case host => exact linkReturn_emit_hostSame ..

end Sys2Proof.Machine
end

section
/-!
The image format and the load (70_reset_and_hazards.md R163 to R165): which Words a file holds, and what every address
reads after data words are loaded. `loadWords_read` says the latter once, for all three of loaded, dropped and untouched.
-/
namespace Sys2Proof.Machine

/-- The big-endian Word of two bytes as a number (R163). -/
theorem byte_append_toNat (hi lo : Byte) : (hi ++ lo : Word).toNat = hi.toNat * 256 + lo.toNat := by
  rw [BitVec.toNat_append, ← Nat.shiftLeft_add_eq_or_of_lt lo.isLt, Nat.shiftLeft_eq]

theorem imageWords_getElem? {file : List Byte} {k : Nat} {hi lo : Byte} (hhi : file[2 * k]? = some hi)
    (hlo : file[2 * k + 1]? = some lo) : (imageWords file)[k]? = some (hi ++ lo) := by
  induction k generalizing file with
  | zero =>
    match file with
    | b :: c :: rest =>
      obtain rfl : b = hi := by simpa using hhi
      obtain rfl : c = lo := by simpa using hlo
      rfl
  | succ k ih =>
    match file with
    | b :: c :: rest => exact ih (file := rest) hhi hlo

theorem imageWords_length : ∀ file : List Byte, (imageWords file).length = file.length / 2
  | [] => rfl
  | [_] => by simp [imageWords]
  | _ :: _ :: rest => by
    simp only [imageWords, List.length_cons, imageWords_length rest]
    omega

/-- After the data words `ds` are loaded from `a` on, address `b` reads the word `b - a` of them if there is one, and what
it read before otherwise. -/
theorem loadWords_read (m : Memory) (a : Nat) (ds : List Word) (b : Word) :
    (loadWords m a ds).read b = if a ≤ b.toNat then ds[b.toNat - a]?.getD (m.read b) else m.read b := by
  induction ds generalizing m a with
  | nil => simp [loadWords]
  | cons d ds ih =>
    have hb : b.toNat < 65536 := b.isLt
    by_cases ha : a < 65536
    · have hab : b = BitVec.ofNat 16 a ↔ b.toNat = a := by
        rw [← BitVec.toNat_inj, BitVec.toNat_ofNat, Nat.mod_eq_of_lt ha]
      rw [loadWords, if_pos ha, ih, Memory.read_write]
      simp only [hab]
      rcases lt_trichotomy b.toNat a with hlt | rfl | hgt
      · simp [hlt.ne, hlt.not_ge, (Nat.lt_succ_of_lt hlt).not_ge]
      · simp
      · have hsub : b.toNat - a = b.toNat - (a + 1) + 1 := by omega
        simp [hgt.ne', hgt.le, Nat.succ_le_of_lt hgt, hsub]
    · rw [loadWords, if_neg ha, if_neg (by omega)]

/-- A load writes the data words from the origin on (R164, R165). -/
theorem loadImage_eq_loadWords {file : List Byte} {origin : Word} {ds : List Word}
    (h : imageWords file = origin :: ds) (m : Memory) : loadImage m file = loadWords m origin.toNat ds := by
  rw [loadImage, h]

/-- Settles O58: the file's Words by recursion on the file, and each address read after the load by `loadWords_read`. -/
theorem imageLoadWritesExactlyItsWords : Obligations.ImageLoadWritesExactlyItsWords := by
  refine ⟨fun file k hi lo hhi hlo => ?value, fun file n hn => ?count,
    fun m file origin ds hfile => ⟨fun j d hd hj => ?loaded, fun a ha => ?untouched⟩⟩
  case value => exact ⟨hi ++ lo, imageWords_getElem? hhi hlo, byte_append_toNat hi lo⟩
  case count => rw [imageWords_length, hn]; omega
  case loaded =>
    have hto : (BitVec.ofNat 16 (origin.toNat + j)).toNat = origin.toNat + j := Nat.mod_eq_of_lt hj
    rw [loadImage_eq_loadWords hfile, loadWords_read, hto, if_pos (Nat.le_add_right ..), Nat.add_sub_cancel_left, hd]
    rfl
  case untouched =>
    rw [loadImage_eq_loadWords hfile, loadWords_read]
    split
    · have hend : ds.length ≤ a.toNat - origin.toNat := by omega
      rw [List.getElem?_eq_none hend]
      rfl
    · rfl

end Sys2Proof.Machine
end

section
/-!
The encoding (30_encoding.md): that decoding a Word and writing an instruction as a Word undo each other (R53, R58), and
which bits of a Word decide its instruction (R57). `decodeAs_readsBackAs` says once what ties a decoded instruction to
its Word.
-/
namespace Sys2Proof.Machine

/-! ### From the instruction to its Word and back -/

/-- The operands of a well-formed instruction, read back from its own Word: the family `BodyRoundTrip` in one. -/
theorem decodeAs_encode (m : OpcodeMap) {i : Instr} (h : i.wf = true) : decodeAs i.opcode (encode m i) = i := by
  cases i with
  | addReg dr sr1 sr2 => exact Laws.BodyRoundTrip.addReg dr sr1 sr2 h m
  | addImm dr sr1 imm5 => exact Laws.BodyRoundTrip.addImm dr sr1 imm5 h m
  | andReg dr sr1 sr2 => exact Laws.BodyRoundTrip.andReg dr sr1 sr2 h m
  | andImm dr sr1 imm5 => exact Laws.BodyRoundTrip.andImm dr sr1 imm5 h m
  | not dr sr => exact Laws.BodyRoundTrip.not dr sr h m
  | br n z p off9 => exact Laws.BodyRoundTrip.br n z p off9 h m
  | jmp base => exact Laws.BodyRoundTrip.jmp base h m
  | ret => exact Laws.BodyRoundTrip.ret h m
  | jsr off11 => exact Laws.BodyRoundTrip.jsr off11 h m
  | jsrr base => exact Laws.BodyRoundTrip.jsrr base h m
  | ld dr off9 => exact Laws.BodyRoundTrip.ld dr off9 h m
  | ldi dr off9 => exact Laws.BodyRoundTrip.ldi dr off9 h m
  | ldr dr base off6 => exact Laws.BodyRoundTrip.ldr dr base off6 h m
  | lea dr off9 => exact Laws.BodyRoundTrip.lea dr off9 h m
  | st sr off9 => exact Laws.BodyRoundTrip.st sr off9 h m
  | sti sr off9 => exact Laws.BodyRoundTrip.sti sr off9 h m
  | str sr base off6 => exact Laws.BodyRoundTrip.str sr base off6 h m
  | trap unread vec8 => exact Laws.BodyRoundTrip.trap unread vec8 h m
  | getc => exact Laws.BodyRoundTrip.getc h m
  | out => exact Laws.BodyRoundTrip.out h m
  | puts => exact Laws.BodyRoundTrip.puts h m
  | inp => exact Laws.BodyRoundTrip.inp h m
  | putsp => exact Laws.BodyRoundTrip.putsp h m
  | halt => exact Laws.BodyRoundTrip.halt h m
  | rti unread => exact Laws.BodyRoundTrip.rti unread h m
  | res unread => exact Laws.BodyRoundTrip.res unread h m

/-- Settles O3: the opcode field of an encoded Word finds the opcode again, and the operands are read back as they
were. -/
theorem decodeOfEncodeIsIdentity : Obligations.DecodeOfEncodeIsIdentity := fun m i hm hi =>
  (decode_of_fieldOpcode hm (fieldOpcode_encode m i)).trans (congrArg _ (decodeAs_encode m hi))

/-! ### A Word cut at the borders of its fields -/

section Cuts
variable (w : Word)

theorem fieldReg11_toBits : (fieldReg11 w).toBits = w.extractLsb' 9 3 := Reg.toBits_ofBits _

theorem fieldReg8_toBits : (fieldReg8 w).toBits = w.extractLsb' 6 3 := Reg.toBits_ofBits _

theorem fieldReg2_toBits : (fieldReg2 w).toBits = w.extractLsb' 0 3 := Reg.toBits_ofBits _

theorem extract_one (k : Nat) : w.extractLsb' k 1 = BitVec.ofBool (w.getLsbD k) := by
  ext i hi
  obtain rfl : i = 0 := by omega
  simp

theorem low12_at_9 : (w.extractLsb' 9 3 ++ w.extractLsb' 0 9 : BitVec 12) = w.extractLsb' 0 12 :=
  BitVec.extractLsb'_append_extractLsb'_eq_extractLsb' rfl

theorem low9_at_6 : (w.extractLsb' 6 3 ++ w.extractLsb' 0 6 : BitVec 9) = w.extractLsb' 0 9 :=
  BitVec.extractLsb'_append_extractLsb'_eq_extractLsb' rfl

theorem low6_at_5 : (w.extractLsb' 5 1 ++ w.extractLsb' 0 5 : BitVec 6) = w.extractLsb' 0 6 :=
  BitVec.extractLsb'_append_extractLsb'_eq_extractLsb' rfl

theorem low6_at_3 : (w.extractLsb' 3 3 ++ w.extractLsb' 0 3 : BitVec 6) = w.extractLsb' 0 6 :=
  BitVec.extractLsb'_append_extractLsb'_eq_extractLsb' rfl

theorem low12_at_11 : (w.extractLsb' 11 1 ++ w.extractLsb' 0 11 : BitVec 12) = w.extractLsb' 0 12 :=
  BitVec.extractLsb'_append_extractLsb'_eq_extractLsb' rfl

theorem low12_at_8 : (w.extractLsb' 8 4 ++ w.extractLsb' 0 8 : BitVec 12) = w.extractLsb' 0 12 :=
  BitVec.extractLsb'_append_extractLsb'_eq_extractLsb' rfl

/-- The three mask bits of BR are bits [11:9]. -/
theorem bits11_to_9 :
    (BitVec.ofBool (w.getLsbD 11) ++
        (BitVec.ofBool (w.getLsbD 10) ++ BitVec.ofBool (w.getLsbD 9) : BitVec 2) : BitVec 3) =
      w.extractLsb' 9 3 := by
  have hzp : (w.extractLsb' 10 1 ++ w.extractLsb' 9 1 : BitVec 2) = w.extractLsb' 9 2 :=
    BitVec.extractLsb'_append_extractLsb'_eq_extractLsb' rfl
  rw [← extract_one, ← extract_one, ← extract_one, hzp]
  exact BitVec.extractLsb'_append_extractLsb'_eq_extractLsb' rfl

/-- The Word whose bits [5:3] are 000 agrees with `w` on bit 5 and bits [2:0], if bit 5 of `w` is clear. -/
theorem low6_of_registerForm (h : w.getLsbD 5 = false) :
    (0b000#3 ++ (fieldReg2 w).toBits : BitVec 6) &&& (0b100#3 ++ 0b111#3) =
      w.extractLsb' 0 6 &&& (0b100#3 ++ 0b111#3) := by
  have hbit : w.extractLsb' 3 3 &&& 0b100#3 = 0b000#3 &&& 0b100#3 := by
    have hcut : (w.extractLsb' 5 1 ++ w.extractLsb' 3 2 : BitVec 3) = w.extractLsb' 3 3 :=
      BitVec.extractLsb'_append_extractLsb'_eq_extractLsb' rfl
    rw [← hcut, extract_one, h]
    generalize w.extractLsb' 3 2 = x
    revert x
    decide
  rw [fieldReg2_toBits, ← low6_at_3, BitVec.and_append, BitVec.and_append, hbit]

theorem low12_of_immediateForm (h : w.getLsbD 5 = true) :
    ((fieldReg11 w).toBits ++ ((fieldReg8 w).toBits ++ (1#1 ++ fieldImm5 w : BitVec 6) : BitVec 9) : BitVec 12) =
      w.extractLsb' 0 12 := by
  have hlow6 : (1#1 ++ fieldImm5 w : BitVec 6) = w.extractLsb' 0 6 := by
    rw [← low6_at_5, extract_one, h]
    rfl
  rw [hlow6, fieldReg11_toBits, fieldReg8_toBits, low9_at_6, low12_at_9]

/-- Agreement on a mask, part by part. -/
theorem append_and_congr {n k : Nat} {a a' p : BitVec n} {x x' r : BitVec k} (ha : a &&& p = a' &&& p)
    (hx : x &&& r = x' &&& r) : (a ++ x) &&& (p ++ r) = (a' ++ x') &&& (p ++ r) := by
  rw [BitVec.and_append, BitVec.and_append, ha, hx]

/-- Agreement on bits [11:0] of a format with two register fields, field by field. -/
theorem and_of_fields {a b : BitVec 3} {x : BitVec 6} (p q : BitVec 3) (r : BitVec 6)
    (ha : a &&& p = w.extractLsb' 9 3 &&& p) (hb : b &&& q = w.extractLsb' 6 3 &&& q)
    (hx : x &&& r = w.extractLsb' 0 6 &&& r) :
    (a ++ (b ++ x)) &&& (p ++ (q ++ r)) = w.extractLsb' 0 12 &&& (p ++ (q ++ r)) := by
  rw [← low12_at_9, ← low9_at_6]
  exact append_and_congr ha (append_and_congr hb hx)

end Cuts

/-! ### The form bits of JSR, JMP and TRAP -/

section Forms
variable {w : Word}

theorem decodeAs_jsr_of_not_bit11 (h : w.getLsbD 11 = false) : decodeAs .jsr w = .jsrr (fieldReg8 w) :=
  if_neg (by rw [h]; decide)

theorem decodeAs_jmp_of_r7 (h : fieldReg8 w = .r7) : decodeAs .jmp w = .ret := if_pos h

theorem decodeAs_jmp_of_ne (h : fieldReg8 w ≠ .r7) : decodeAs .jmp w = .jmp (fieldReg8 w) := if_neg h

theorem decodeAs_trap_of_service {v : Service} (h : serviceAt (fieldVec8 w) = some v) :
    decodeAs .trap w = v.instr := by
  simp only [decodeAs, h]

theorem decodeAs_trap_of_none (h : serviceAt (fieldVec8 w) = none) :
    decodeAs .trap w = .trap (fieldTrapUnread w) (fieldVec8 w) := by
  simp only [decodeAs, h]

/-- The routine found for a vector has that vector. -/
theorem vector_of_serviceAt {vec8 : BitVec 8} {v : Service} (h : serviceAt vec8 = some v) : v.vector = vec8 := by
  simpa using List.find?_some h

end Forms

/-! ### What ties a decoded instruction to its Word -/

/-- The instruction has the opcode `o`, an encoding of its own, and the bits of `w` that it reads. -/
structure ReadsBackAs (o : Opcode) (w : Word) (i : Instr) : Prop where
  opcode : i.opcode = o
  wf : i.wf = true
  bits : ∃ mask12, i.readMask = 0xF#4 ++ mask12 ∧ i.low12 &&& mask12 = w.extractLsb' 0 12 &&& mask12

theorem ReadsBackAs.of_low12 {o : Opcode} {w : Word} {i : Instr} (ho : i.opcode = o) (hwf : i.wf = true)
    (hall : i.readMask = 0xFFFF) (h : i.low12 = w.extractLsb' 0 12) : ReadsBackAs o w i :=
  ⟨ho, hwf, 0xFFF, hall, by rw [h]⟩

theorem decodeAs_readsBackAs (o : Opcode) (w : Word) : ReadsBackAs o w (decodeAs o w) := by
  have reg11 (p : BitVec 3) : (fieldReg11 w).toBits &&& p = w.extractLsb' 9 3 &&& p := by rw [fieldReg11_toBits]
  have reg8 (p : BitVec 3) : (fieldReg8 w).toBits &&& p = w.extractLsb' 6 3 &&& p := by rw [fieldReg8_toBits]
  cases o with
  | br =>
    refine .of_low12 rfl rfl rfl ?_
    show (_ ++ fieldOff9 w : BitVec 12) = _
    rw [bits11_to_9]
    exact low12_at_9 w
  | add | and =>
    simp only [decodeAs]
    split
    · next h => exact .of_low12 rfl rfl rfl (low12_of_immediateForm w h)
    · next h =>
      have hbit : w.getLsbD 5 = false := by simpa using h
      exact ⟨rfl, rfl, _, rfl, and_of_fields w 0b111 0b111 _ (reg11 _) (reg8 _) (low6_of_registerForm w hbit)⟩
  | ld | ldi | lea | st | sti =>
    refine .of_low12 rfl rfl rfl ?_
    show ((fieldReg11 w).toBits ++ fieldOff9 w : BitVec 12) = _
    rw [fieldReg11_toBits]
    exact low12_at_9 w
  | ldr | str =>
    refine .of_low12 rfl rfl rfl ?_
    show ((fieldReg11 w).toBits ++ ((fieldReg8 w).toBits ++ fieldOff6 w : BitVec 9) : BitVec 12) = _
    rw [fieldReg11_toBits, fieldReg8_toBits, fieldOff6, low9_at_6, low12_at_9]
  | jsr =>
    cases h : w.getLsbD 11 with
    | true =>
      rw [decodeAs_jsr_of_bit11 w h]
      refine .of_low12 rfl rfl rfl ?_
      rw [← low12_at_11, extract_one, h]
      rfl
    | false =>
      rw [decodeAs_jsr_of_not_bit11 h]
      have hbit : 0b000#3 &&& 0b100#3 = w.extractLsb' 9 3 &&& 0b100#3 := by
        rw [← bits11_to_9, h]
        cases w.getLsbD 10 <;> cases w.getLsbD 9 <;> rfl
      exact ⟨rfl, rfl, _, rfl, and_of_fields w 0b100 0b111 0 hbit (reg8 _) (by simp)⟩
  | not =>
    rw [decodeAs_not]
    exact ⟨rfl, rfl, _, rfl, and_of_fields w 0b111 0b111 0 (reg11 _) (reg8 _) (by simp)⟩
  | jmp =>
    by_cases h : fieldReg8 w = .r7
    · rw [decodeAs_jmp_of_r7 h]
      exact ⟨rfl, rfl, _, rfl, and_of_fields w 0 0b111 0 (by simp) (h ▸ reg8 _) (by simp)⟩
    · rw [decodeAs_jmp_of_ne h]
      exact ⟨rfl, by simp [Instr.wf, h], _, rfl, and_of_fields w 0 0b111 0 (by simp) (reg8 _) (by simp)⟩
  | rti | res => exact .of_low12 rfl rfl rfl rfl
  | trap =>
    cases h : serviceAt (fieldVec8 w) with
    | some v =>
      rw [decodeAs_trap_of_service h]
      have hbits : (0b0000#4 ++ v.vector) &&& (0#4 ++ 0xFF#8) = w.extractLsb' 0 12 &&& (0#4 ++ 0xFF#8) := by
        rw [vector_of_serviceAt h, ← low12_at_8]
        exact append_and_congr (by simp) rfl
      cases v <;> exact ⟨rfl, rfl, _, rfl, hbits⟩
    | none =>
      rw [decodeAs_trap_of_none h]
      exact .of_low12 rfl (by simpa [Instr.wf] using (serviceAt_eq_none_iff _).mp h) rfl (low12_at_8 w)

/-- An instruction's own Word agrees with the Word it was decoded from on every bit that decides it. -/
theorem ReadsBackAs.encode_and_readMask {m : OpcodeMap} {o : Opcode} {w : Word} {i : Instr} (h : ReadsBackAs o w i)
    (ho : m.code o = fieldOpcode w) : encode m i &&& i.readMask = w &&& i.readMask := by
  obtain ⟨rfl, -, mask12, hmask, hbits⟩ := h
  have hw : (fieldOpcode w ++ w.extractLsb' 0 12) &&& (0xF#4 ++ mask12) = w &&& (0xF#4 ++ mask12) := by
    rw [fieldOpcode_append]
  rw [hmask, ← hw, encode, ho]
  exact append_and_congr rfl hbits

/-- Settles O4: sixteen names use up all sixteen opcode values, so every Word has an opcode; and what `decodeAs` reads
it keeps. -/
theorem encodeOfDecodeKeepsReadBits : Obligations.EncodeOfDecodeKeepsReadBits := by
  intro m w hm
  obtain ⟨o, ho⟩ := OpcodeMap.exists_opcodeAt hm (fieldOpcode w)
  have hcode := OpcodeMap.code_of_opcodeAt ho
  have hreads := decodeAs_readsBackAs o w
  exact ⟨decodeAs o w, decode_of_fieldOpcode hm hcode.symm, hreads.wf, hreads.encode_and_readMask hcode⟩

/-! ### Bits that are not read (R57) -/

section Unread
variable {w w' : Word}

theorem eq_of_full_mask (h : w' &&& 0xFFFF = w &&& 0xFFFF) : w' = w := by
  have hall (x : Word) : x &&& 0xFFFF = x := BitVec.and_allOnes
  rwa [hall, hall] at h

/-- The form bit and the three register fields of ADD and AND lie in the mask of the register form. -/
theorem registerForm_of_mask (h : w' &&& 0xFFE7 = w &&& 0xFFE7) :
    w'.getLsbD 5 = w.getLsbD 5 ∧ fieldReg11 w' = fieldReg11 w ∧ fieldReg8 w' = fieldReg8 w ∧
      fieldReg2 w' = fieldReg2 w :=
  ⟨getLsbD_of_mask h 5 (by decide), congrArg Reg.ofBits (extract_of_mask h 9 3 (by decide)),
    congrArg Reg.ofBits (extract_of_mask h 6 3 (by decide)), congrArg Reg.ofBits (extract_of_mask h 0 3 (by decide))⟩

/-- A Word that agrees on the bits an instruction reads gives the same instruction, under the same opcode. -/
theorem decodeAs_of_readMask {o : Opcode}
    (h : w' &&& (decodeAs o w).readMask = w &&& (decodeAs o w).readMask) : decodeAs o w' = decodeAs o w := by
  cases o with
  | br | ld | ldi | lea | st | sti | ldr | str | rti | res => rw [eq_of_full_mask h]
  | add | and =>
    simp only [decodeAs] at h ⊢
    split at h
    · rw [eq_of_full_mask h]
    · next hbit =>
      obtain ⟨hform, h11, h8, h2⟩ := registerForm_of_mask h
      rw [hform, if_neg hbit, if_neg hbit, h11, h8, h2]
  | jsr =>
    simp only [decodeAs] at h ⊢
    split at h
    · rw [eq_of_full_mask h]
    · next hbit =>
      change w' &&& 0xF9C0 = w &&& 0xF9C0 at h
      have hform : w'.getLsbD 11 = w.getLsbD 11 := getLsbD_of_mask h 11 (by decide)
      have hbase : fieldReg8 w' = fieldReg8 w := congrArg Reg.ofBits (extract_of_mask h 6 3 (by decide))
      rw [hform, if_neg hbit, if_neg hbit, hbase]
  | not =>
    change w' &&& 0xFFC0 = w &&& 0xFFC0 at h
    have h11 : fieldReg11 w' = fieldReg11 w := congrArg Reg.ofBits (extract_of_mask h 9 3 (by decide))
    have h8 : fieldReg8 w' = fieldReg8 w := congrArg Reg.ofBits (extract_of_mask h 6 3 (by decide))
    rw [decodeAs_not, decodeAs_not, h11, h8]
  | jmp =>
    have hmask : (decodeAs .jmp w).readMask = 0xF1C0 := by
      simp only [decodeAs]
      split <;> rfl
    rw [hmask] at h
    have hbase : fieldReg8 w' = fieldReg8 w := congrArg Reg.ofBits (extract_of_mask h 6 3 (by decide))
    simp only [decodeAs, hbase]
  | trap =>
    cases hv : serviceAt (fieldVec8 w) with
    | some v =>
      have hmask : v.instr.readMask = 0xF0FF := by cases v <;> rfl
      rw [decodeAs_trap_of_service hv] at h ⊢
      rw [hmask] at h
      have hvec : fieldVec8 w' = fieldVec8 w := extract_of_mask h 0 8 (by decide)
      exact decodeAs_trap_of_service (hvec ▸ hv)
    | none =>
      rw [decodeAs_trap_of_none hv] at h
      rw [eq_of_full_mask h]

/-- Words that agree on the opcode have one opcode, and then `decodeAs_of_readMask` applies. -/
theorem decode_of_readMask {m : OpcodeMap} {i : Instr} (hi : decode m w = .ok i)
    (h : w' &&& i.readMask = w &&& i.readMask) : decode m w' = .ok i := by
  obtain ⟨o, ho, rfl⟩ := decode_cases hi
  have hop : fieldOpcode w' = fieldOpcode w := extract_of_mask h 12 4 (readMask_opcode _)
  simp only [decode, hop, ho, decodeAs_of_readMask h]

end Unread

/-- The word that the dispatch of TRAP records changes nothing but the run state. -/
theorem trapDispatch_setRs_running (word word' : Word) (vec8 : BitVec 8) (s : State) :
    (trapDispatch word vec8 s).setRs .running = (trapDispatch word' vec8 s).setRs .running := by
  unfold trapDispatch
  split
  case h_7 =>
    unfold unknownVector
    split <;> rfl
  all_goals rfl

/-- Settles O5: every field that is read lies in the mask, the masks are those of R57, and the bits that TRAP, RTI and
RES keep reach nothing but the recorded Word. -/
theorem unreadBitsDoNotChangeTheInstruction : Obligations.UnreadBitsDoNotChangeTheInstruction := by
  refine ⟨fun m w w' i hi h => decode_of_readMask hi h, fun r q => ⟨rfl, rfl, rfl, rfl, rfl⟩, by decide,
    fun u u' v s => ⟨_, _, rfl, rfl, ?trap⟩, fun u u' s => ⟨_, _, rfl, rfl, rfl⟩, fun u u' s => ⟨_, _, rfl, rfl, rfl⟩⟩
  case trap => exact trapDispatch_setRs_running _ _ v _

/-! ### The unassigned opcodes -/

theorem fieldOpcode_toNat (w : Word) : (fieldOpcode w).toNat = w.toNat / 4096 := by
  have hlt : w.toNat < 65536 := w.isLt
  rw [fieldOpcode, BitVec.extractLsb'_toNat, Nat.shiftRight_eq_div_pow]
  omega

/-- The Word is the instruction's own (`encode_of_decode_unassigned`), so its opcode field is that of RTI. -/
theorem decode_rti_iff {m : OpcodeMap} {w : Word} (hm : m.wf) :
    (∃ u, decode m w = .ok (.rti u)) ↔ fieldOpcode w = 0b1000#4 := by
  constructor
  · rintro ⟨u, hu⟩
    rw [← encode_of_decode_unassigned hu (.inl rfl), fieldOpcode_encode]
    rfl
  · exact fun h => ⟨_, decode_of_fieldOpcode (o := .rti) hm h⟩

theorem decode_res_iff {m : OpcodeMap} {w : Word} (hm : m.wf) :
    (∃ u, decode m w = .ok (.res u)) ↔ fieldOpcode w = 0b1101#4 := by
  constructor
  · rintro ⟨u, hu⟩
    rw [← encode_of_decode_unassigned hu (.inr rfl), fieldOpcode_encode]
    rfl
  · exact fun h => ⟨_, decode_of_fieldOpcode (o := .res) hm h⟩

/-- Settles O6: the opcode field is the Word divided by 4096. -/
theorem illegalWordsAreTheTwoUnassignedRanges : Obligations.IllegalWordsAreTheTwoUnassignedRanges := by
  intro m w hm
  rw [decode_rti_iff hm, decode_res_iff hm, ← BitVec.toNat_inj, ← BitVec.toNat_inj, fieldOpcode_toNat,
    BitVec.toNat_ofNat, BitVec.toNat_ofNat]
  omega

/-! ### Fixed words and the default map -/

/-- Settles O1 by running the decoder on the fourteen Words. -/
theorem printedWordsDecode : Obligations.PrintedWordsDecode := by
  unfold Obligations.PrintedWordsDecode
  decide

/-- Settles O2 by running the map over the sixteen names. -/
theorem defaultMapIsTheSpecTable : Obligations.DefaultMapIsTheSpecTable := ⟨by decide, by decide, rfl⟩

end Sys2Proof.Machine
end

section
/-!
The keyboard, the fetch and the memory list: which Words the poll stores (20_memory.md R31, R32, R45), what the fetch
reads and leaves unchanged (30_encoding.md R50, 20_memory.md R42), and that a canonical list is determined by what it
reads (log 1).
-/
namespace Sys2Proof.Machine

/-! ### The keyboard poll -/

section Poll
variable (s : State)

theorem keyboardPoll_regsSame : RegsSame s (keyboardPoll s) := fun q => congrArg (·.get q) (keyboardPoll_regs s)

theorem keyboardPoll_controlSame : ControlSame s (keyboardPoll s) where
  rs := keyboardPoll_rs ..
  ts := keyboardPoll_ts ..

theorem keyboardPoll_hostSame : HostSame s (keyboardPoll s) where
  arrivals := keyboardPoll_arrivals ..
  cfg := keyboardPoll_cfg ..

variable {s}

/-- Every Word after a poll that takes the byte `b`. -/
theorem keyboardPoll_peek_of_cons {b : Byte} {rest : List Byte} (h : s.input = b :: rest) (a : Word) :
    (keyboardPoll s).peek a =
      if a = s.cfg.kbdrAddr then zext b else if a = s.cfg.kbsrAddr then 0x8000 else s.peek a := by
  rw [keyboardPoll_cons h, State.poke_peek, State.poke_peek, State.setInput_peek]

/-- Every Word after a poll that finds no byte. -/
theorem keyboardPoll_peek_of_nil (h : s.input = []) (a : Word) :
    (keyboardPoll s).peek a = if a = s.cfg.kbsrAddr then 0x0000 else s.peek a := by
  rw [keyboardPoll_nil h, State.poke_peek]

/-- The status Word says whether a byte was pending. -/
theorem keyboardPoll_peek_kbsr (hne : s.cfg.kbsrAddr ≠ s.cfg.kbdrAddr) :
    (keyboardPoll s).peek s.cfg.kbsrAddr = if s.input = [] then 0x0000 else 0x8000 := by
  cases h : s.input with
  | nil => simp [keyboardPoll_peek_of_nil h]
  | cons b rest => simp [keyboardPoll_peek_of_cons h, hne]

end Poll

/-- Settles O12: the Words after the poll, address by address, in its two cases. -/
theorem keyboardPollMovesOneByte : Obligations.KeyboardPollMovesOneByte := by
  refine fun s hne => ⟨fun b rest h => ⟨?status, ?data, fun a ha hd => ?others, ?taken⟩,
    fun h => ⟨?idle, fun a ha => ?same, ?none⟩, keyboardPoll_regsSame s, keyboardPoll_pc s, keyboardPoll_cond s,
    keyboardPoll_output s, keyboardPoll_controlSame s, keyboardPoll_hostSame s⟩
  case status => rw [keyboardPoll_peek_kbsr hne, h, if_neg (List.cons_ne_nil b rest)]
  case data => rw [keyboardPoll_peek_of_cons h, if_pos rfl, zext_toNat]
  case others => rw [keyboardPoll_peek_of_cons h, if_neg hd, if_neg ha]
  case taken => rw [keyboardPoll_input, h, List.tail_cons]
  case idle => rw [keyboardPoll_peek_of_nil h, if_pos rfl]
  case same => rw [keyboardPoll_peek_of_nil h, if_neg ha]
  case none => rw [keyboardPoll_input, h, List.tail_nil]

/-- Settles O13: the second poll is a poll of the state the first leaves, whose oldest byte is the second. -/
theorem secondPollOverwritesTheFirstByte : Obligations.SecondPollOverwritesTheFirstByte := by
  intro s b c rest hne hin
  have hin' : (keyboardPoll s).input = c :: rest := by rw [keyboardPoll_input, hin, List.tail_cons]
  have hcfg : (keyboardPoll s).cfg = s.cfg := keyboardPoll_cfg s
  have hread : memRead s.cfg.kbsrAddr s = ((keyboardPoll s).peek s.cfg.kbsrAddr, keyboardPoll s) := memRead_of_eq rfl
  have hread' : memRead s.cfg.kbsrAddr (keyboardPoll s) =
      ((keyboardPoll (keyboardPoll s)).peek s.cfg.kbsrAddr, keyboardPoll (keyboardPoll s)) :=
    memRead_of_eq (by rw [hcfg])
  have hdata : s.cfg.kbdrAddr ≠ (keyboardPoll (keyboardPoll s)).cfg.kbsrAddr := by
    rw [keyboardPoll_cfg, hcfg]
    exact hne.symm
  rw [hread, hread', memRead_of_ne hdata]
  refine ⟨?first, ?second, ?overwritten, ?taken⟩
  case first => simp [keyboardPoll_peek_kbsr hne, hin]
  case second => simp [keyboardPoll_peek_of_cons hin', hne]
  case overwritten => simp [keyboardPoll_peek_of_cons hin']
  case taken => rw [keyboardPoll_input, hin', List.tail_cons]

/-! ### The fetch -/

/-- Settles O16: the fetch is a bus read at `pc` and then a write of `pc` alone. -/
theorem fetchReadsTheBusThenIncrements : Obligations.FetchReadsTheBusThenIncrements := by
  refine fun s => ⟨rfl, BitVec.toNat_add s.pc 1, (memRead_regsSame s.pc s).trans (State.setPc_regsSame _ _),
    memRead_cond s.pc s, fun _ => State.setPc_peek .., rfl, memRead_output s.pc s, ?control, ?host⟩
  case control => exact (memRead_controlSame s.pc s).trans (State.setPc_restSame ..).control
  case host => exact (memRead_hostSame s.pc s).trans (State.setPc_restSame ..).host

/-- Settles O17: the fetch at that address is a poll, which stores the Word that is then fetched. -/
theorem fetchFromTheStatusCellPolls : Obligations.FetchFromTheStatusCellPolls := by
  intro s hne hpc
  rw [fetch_fst, fetch_snd, State.setPc_input, pollIfStatus_of_eq hpc, hpc]
  exact ⟨keyboardPoll_peek_kbsr hne, keyboardPoll_input s⟩

theorem fetch_of_ne {s : State} (h : s.pc ≠ s.cfg.kbsrAddr) : fetch s = (s.peek s.pc, s.setPc (s.pc + 1)) := by
  rw [fetch, memRead_of_ne h]

theorem fetch_after_memWrite {a : Word} {s : State} (v : Word) (h : a ≠ s.cfg.kbsrAddr) :
    (fetch ((memWrite a v s).setPc a)).1 = v := by
  rw [fetch_of_ne (s := (memWrite a v s).setPc a) h]
  exact State.poke_peek_self s a v

/-- Settles O18: each of the three is a bus write, and no bus read in between polls. -/
theorem storeIsSeenByTheNextFetch : Obligations.StoreIsSeenByTheNextFetch := by
  refine ⟨fun s sr off9 h => ⟨_, exec_st sr off9 s, fetch_after_memWrite _ h⟩,
    fun s sr off9 h => ⟨_, exec_sti sr off9 s, fetch_after_memWrite _ ?pointer⟩,
    fun s sr base off6 h => ⟨_, exec_str sr base off6 s, fetch_after_memWrite _ h⟩⟩
  case pointer => rwa [pointerRead_eq, (memRead_hostSame ..).cfg]

/-! ### The canonical form -/

section Canonical
variable {m : Memory}

theorem Memory.wf_keys_nodup (hm : m.wf) : (m.map Prod.fst).Nodup :=
  List.pairwise_map.mpr (hm.1.imp fun h => h.ne)

/-- The cells of a canonical list are the addresses that do not read as unlisted, each with the Word read there. -/
theorem Memory.mem_iff_read (hm : m.wf) (c : MemCell) :
    c ∈ m ↔ c.1 < 65536 ∧ c.2 ≠ Memory.unlisted ∧ m.read (BitVec.ofNat 16 c.1) = c.2 := by
  have hkey (h : c.1 < 65536) : (BitVec.ofNat 16 c.1).toNat = c.1 := Nat.mod_eq_of_lt h
  constructor
  · intro hc
    obtain ⟨haddr, hne⟩ := hm.2 c hc
    refine ⟨haddr, hne, ?_⟩
    unfold Memory.read
    rw [hkey haddr]
    cases hf : m.find? fun d => d.1 == c.1 with
    | none => simpa using List.find?_eq_none.mp hf c hc
    | some d =>
      have hd : d.1 = c.1 := by simpa using List.find?_some hf
      have : d = c := List.inj_on_of_nodup_map (Memory.wf_keys_nodup hm) (List.mem_of_find?_eq_some hf) hc hd
      rw [this]
  · rintro ⟨haddr, hne, hread⟩
    unfold Memory.read at hread
    rw [hkey haddr] at hread
    cases hf : m.find? fun d => d.1 == c.1 with
    | none =>
      rw [hf] at hread
      exact absurd hread.symm hne
    | some d =>
      rw [hf] at hread
      have hd : d.1 = c.1 := by simpa using List.find?_some hf
      have : d = c := Prod.ext hd hread
      exact this ▸ List.mem_of_find?_eq_some hf

end Canonical

/-- Settles O15: what a canonical list reads determines its cells (`Memory.mem_iff_read`), and their rising addresses
determine their order. -/
theorem canonicalMemoryIsUnique : Obligations.CanonicalMemoryIsUnique := by
  intro m m' hm hm' hread
  have hnodup {l : Memory} (hl : l.wf) : l.Nodup := (Memory.wf_keys_nodup hl).of_map
  have hperm : m.Perm m' := (List.perm_ext_iff_of_nodup (hnodup hm) (hnodup hm')).mpr fun c => by
    rw [Memory.mem_iff_read hm, Memory.mem_iff_read hm', hread]
  exact hperm.eq_of_pairwise (fun c d _ _ hcd hdc => absurd hcd hdc.not_gt) hm.1 hm'.1

end Sys2Proof.Machine
end

section
/-!
Operate forms and control transfer (40_operate.md, 41_control.md): when the two forms of ADD and AND agree (R74), and
for BR, JMP, RET and JSRR the instruction their Words decode to, the target, and the frame (R80, R81, R83).
-/
namespace Sys2Proof.Machine

/-- Settles O22: the forms differ in the second operand alone. -/
theorem registerAndImmediateFormsAgree : Obligations.RegisterAndImmediateFormsAgree := by
  intro s dr sr1 sr2 imm5 h
  rw [exec_addReg, exec_addImm, exec_andReg, exec_andImm, h]
  exact ⟨rfl, rfl⟩

/-! ### BR -/

/-- The mask and the one-hot flag have a common bit exactly when the flag's own bit is set (R80, log 28). -/
theorem branchTaken_iff (n z p : Bool) (c : Cond) :
    branchTaken n z p c = true ↔ (n = true ∧ c = .neg) ∨ (z = true ∧ c = .zero) ∨ (p = true ∧ c = .pos) := by
  cases c <;> revert n z p <;> decide

section Branch
variable {n z p : Bool} (off9 : BitVec 9) {s : State}

theorem exec_br_of_taken (h : branchTaken n z p s.cond = true) :
    exec (.br n z p off9) s = .next (s.setPc (pcRelative off9 s)) := by
  simp only [exec, execBr, h, if_true]

theorem exec_br_of_not_taken (h : ¬ branchTaken n z p s.cond = true) : exec (.br n z p off9) s = .next s := by
  simp only [exec, execBr, if_neg h]

end Branch

theorem RegsSame.refl (s : State) : RegsSame s s := fun _ => rfl

theorem RestSame.refl (s : State) : RestSame s s where
  mem := fun _ => rfl
  control := ⟨rfl, rfl⟩
  streams := ⟨rfl, rfl⟩
  host := ⟨rfl, rfl⟩

/-- Settles O23: a branch taken is a write of `pc` alone, and one not taken changes nothing. -/
theorem branchTestsTheMask : Obligations.BranchTestsTheMask := by
  refine ⟨fun m w hm hw => decode_of_fieldOpcode (o := .br) hm hw, fun s n z p off9 => ?body⟩
  case body =>
    rw [← branchTaken_iff]
    by_cases h : branchTaken n z p s.cond = true
    · exact ⟨_, exec_br_of_taken off9 h, fun _ => pcRelative_toNat s off9, fun hn => absurd h hn, State.setPc_cond ..,
        State.setPc_regsSame s _, State.setPc_restSame s _⟩
    · exact ⟨s, exec_br_of_not_taken off9 h, fun ht => absurd ht h, fun _ => rfl, rfl, .refl s, .refl s⟩

/-! ### JMP and RET -/

theorem exec_jmp (base : Reg) (s : State) : exec (.jmp base) s = .next (s.setPc (s.reg base)) := rfl

theorem exec_ret (s : State) : exec .ret s = .next (s.setPc (s.reg .r7)) := rfl

theorem fieldReg8_eq_r7_iff (w : Word) : fieldReg8 w = .r7 ↔ w.extractLsb' 6 3 = 0b111#3 := by
  constructor
  · intro h
    rw [← fieldReg8_toBits, h]
    rfl
  · intro h
    rw [fieldReg8, h]
    rfl

theorem decodeAs_jmp (w : Word) :
    decodeAs .jmp w = if w.extractLsb' 6 3 = 0b111#3 then .ret else .jmp (fieldReg8 w) := by
  simp only [decodeAs, fieldReg8_eq_r7_iff]

/-- Settles O24: both rows are a write of `pc` alone. -/
theorem jumpGoesToTheBaseRegister : Obligations.JumpGoesToTheBaseRegister := by
  refine ⟨fun m w hm hw => ?words, fun s base => ⟨_, exec_jmp base s, rfl, rfl, ?_⟩,
    fun s => ⟨_, exec_ret s, rfl, rfl, ?_⟩⟩
  case words => exact (decode_of_fieldOpcode (o := .jmp) hm hw).trans (congrArg _ (decodeAs_jmp w))
  all_goals exact ⟨State.setPc_regsSame s _, State.setPc_restSame s _⟩

/-! ### JSRR: a linked jump like JSR, with the base read after the link -/

theorem exec_jsrr (base : Reg) (s : State) :
    exec (.jsrr base) s = .next ((linkReturn s).setPc ((linkReturn s).reg base)) := rfl

theorem linkReturn_reg (r : Reg) (s : State) : (linkReturn s).reg r = if r = .r7 then s.pc else s.reg r :=
  State.setReg_reg ..

/-- Settles O26: bit 11 selects the form, and base 7 reads the link just written. -/
theorem jsrrLinksThenReadsTheBase : Obligations.JsrrLinksThenReadsTheBase := by
  refine ⟨fun m w hm hw hbit => ?words, fun s base => ⟨_, exec_jsrr base s, linkReturn_setPc_reg_r7 .., ?target,
    linkReturn_setPc_cond .., linkReturn_setPc_regsSameBut s _, linkReturn_setPc_restSame ..⟩⟩
  case words => exact (decode_of_fieldOpcode (o := .jsr) hm hw).trans (congrArg _ (decodeAs_jsr_of_not_bit11 hbit))
  case target => rw [State.setPc_pc, linkReturn_reg]

end Sys2Proof.Machine
end

section
/-!
TRAP (44_trap.md R110 to R118): every vector links and then dispatches, so the frame is said once, for any vector
(`trap_frame`); the six routines are six vectors of it, and what each starts is said beside it.
-/
namespace Sys2Proof.Machine

/-! ### The dispatch -/

section Dispatch
variable (u : BitVec 4) (vec8 : BitVec 8) (s : State)

theorem exec_trap : exec (.trap u vec8) s =
    .next (trapDispatch (encode s.cfg.opcodeMap (.trap u vec8)) vec8 (linkReturn s)) := rfl

/-- What TRAP leaves unchanged, whatever its vector starts: the link writes `x[7]` alone, and no routine's start writes
a register, `pc`, `cond`, memory or the input. -/
theorem trap_frame (word : Word) :
    (trapDispatch word vec8 (linkReturn s)).reg .r7 = s.pc ∧
      RegsSameBut .r7 s (trapDispatch word vec8 (linkReturn s)) ∧ (trapDispatch word vec8 (linkReturn s)).pc = s.pc ∧
      (trapDispatch word vec8 (linkReturn s)).cond = s.cond ∧ MemSame s (trapDispatch word vec8 (linkReturn s)) ∧
      (trapDispatch word vec8 (linkReturn s)).input = s.input ∧
      HostSame s (trapDispatch word vec8 (linkReturn s)) := by
  obtain ⟨hregs, hpc, hcond, hmem, hinput, hhost⟩ := trapDispatch_frame word vec8 (linkReturn s)
  have hreg (q : Reg) : (trapDispatch word vec8 (linkReturn s)).reg q = (linkReturn s).reg q :=
    congrArg (·.get q) hregs
  have hlink := linkReturn_restSame s
  refine ⟨?link, fun q hq => ?others, hpc, hcond, fun a => ?mem, hinput.trans hlink.streams.input,
    hlink.host.trans hhost⟩
  case link => rw [hreg, linkReturn_reg_r7]
  case others => rw [hreg, linkReturn_regsSameBut s q hq]
  case mem => exact (congrArg (·.read a) hmem).trans (hlink.mem a)

end Dispatch

/-- The TrapTable as a chain of tests. -/
theorem decodeAs_trap (w : Word) : decodeAs .trap w =
    if fieldVec8 w = 0x20#8 then .getc else if fieldVec8 w = 0x21#8 then .out
      else if fieldVec8 w = 0x22#8 then .puts else if fieldVec8 w = 0x23#8 then .inp
      else if fieldVec8 w = 0x24#8 then .putsp else if fieldVec8 w = 0x25#8 then .halt
      else .trap (fieldTrapUnread w) (fieldVec8 w) := by
  cases h : serviceAt (fieldVec8 w) with
  | some v =>
    rw [decodeAs_trap_of_service h, ← vector_of_serviceAt h]
    cases v <;> rfl
  | none =>
    have hne (v : Service) : fieldVec8 w ≠ v.vector := fun hv => by
      rw [hv, serviceAt_vector] at h
      cases h
    rw [decodeAs_trap_of_none h]
    exact ((if_neg (hne .getc)).trans <| (if_neg (hne .out)).trans <| (if_neg (hne .puts)).trans <|
      (if_neg (hne .inp)).trans <| (if_neg (hne .putsp)).trans <| if_neg (hne .halt)).symm

/-- Settles O34: the frame is that of every vector, and a routine's own instruction is the dispatch on its vector. -/
theorem trapLinksThenDispatches : Obligations.TrapLinksThenDispatches := by
  refine ⟨fun m w hm hw => ?words, fun s u vec8 => ⟨_, exec_trap u vec8 s, trap_frame ..⟩,
    fun s u => ⟨rfl, rfl, rfl, rfl, rfl, rfl⟩⟩
  case words => exact (decode_of_fieldOpcode (o := .trap) hm hw).trans (congrArg _ (decodeAs_trap w))

/-! ### What the routines start -/

/-- A routine's instruction is the dispatch on its vector, whatever Word a fault would have recorded. -/
theorem exec_service (v : Service) (word : Word) (s : State) :
    exec v.instr s = .next (trapDispatch word v.vector (linkReturn s)) := by
  cases v <;> rfl

theorem step_of_halted {s : State} (h : s.rs = .halted) : step s = .fault .halted := by
  simp only [step, h]

theorem step_of_faulted {s : State} {cause : FaultCause} {info : Word} (h : s.rs = .faulted cause info) :
    step s = .fault (.stopped cause info) := by
  simp only [step, h]

/-- Settles O36: after the link, HALT emits and writes the run state, and HALTED has no step. -/
theorem haltEmitsTheNoticeAndHalts : Obligations.HaltEmitsTheNoticeAndHalts := by
  refine fun s => ⟨_, exec_service .halt 0 s, rfl, rfl, fun u => ?final, rfl, trap_frame ..⟩
  case final =>
    rw [step_of_halted rfl]
    nofun

/-- Settles O37: each of the four writes a phase, and IN emits the prompt before. -/
theorem waitingAndStringRoutinesStart : Obligations.WaitingAndStringRoutinesStart := fun s =>
  ⟨⟨_, exec_service .getc 0 s, rfl, rfl, rfl, trap_frame ..⟩,
    ⟨_, exec_service .puts 0 s, congrArg _ (linkReturn_reg_r0 s), rfl, rfl, trap_frame ..⟩,
    ⟨_, exec_service .inp 0 s, rfl, rfl, rfl, trap_frame ..⟩,
    ⟨_, exec_service .putsp 0 s, congrArg _ (linkReturn_reg_r0 s), rfl, rfl, trap_frame ..⟩⟩

/-! ### A vector with no handler -/

section Unknown
variable {word : Word} {vec8 : BitVec 8} {s : State}

theorem trapDispatch_of_none (h : serviceAt vec8 = none) : trapDispatch word vec8 s = unknownVector word s := by
  simp only [trapDispatch, h]

theorem unknownVector_of_fault (h : s.cfg.trapUnknownPolicy = .fault) :
    unknownVector word s = raise .unrecognizedTrap word s := by
  simp only [unknownVector, h]

theorem unknownVector_of_nop (h : s.cfg.trapUnknownPolicy = .nop) : unknownVector word s = s := by
  simp only [unknownVector, h]

variable (word s)

/-- Either policy leaves the phase and the output. -/
theorem unknownVector_ts_output : (unknownVector word s).ts = s.ts ∧ (unknownVector word s).output = s.output := by
  cases h : s.cfg.trapUnknownPolicy with
  | fault =>
    rw [unknownVector_of_fault h]
    exact ⟨rfl, rfl⟩
  | nop =>
    rw [unknownVector_of_nop h]
    exact ⟨rfl, rfl⟩

end Unknown

/-- Settles O38: the dispatch of such a vector is left to the policy, after the link; the rest is the frame of TRAP. -/
theorem unknownVectorFollowsThePolicy : Obligations.UnknownVectorFollowsThePolicy := by
  intro s u vec8 hvec
  have hnone : serviceAt vec8 = none := (serviceAt_eq_none_iff vec8).mpr hvec
  have hdispatch := trapDispatch_of_none (word := encode s.cfg.opcodeMap (.trap u vec8)) (s := linkReturn s) hnone
  obtain ⟨hts, houtput⟩ := unknownVector_ts_output (encode s.cfg.opcodeMap (.trap u vec8)) (linkReturn s)
  obtain ⟨hlink, hregs, hpc, hcond, hmem, hinput, hhost⟩ :=
    trap_frame vec8 s (encode s.cfg.opcodeMap (.trap u vec8))
  refine ⟨_, exec_trap u vec8 s, fun hp => ?fault, fun hp => ?nop, ?phase, hlink, hregs, hpc, hcond, hmem,
    ⟨hinput, ?output⟩, hhost⟩
  case fault =>
    rw [hdispatch, unknownVector_of_fault (s := linkReturn s) hp]
    rfl
  case nop =>
    rw [hdispatch, unknownVector_of_nop (s := linkReturn s) hp]
    rfl
  case phase =>
    rw [hdispatch]
    exact hts
  case output =>
    rw [hdispatch]
    exact houtput

end Sys2Proof.Machine
end

section
/-!
The trap FSM (44_trap.md R117, R119): the step of each phase, said once. The two string routines are one step
(`stringStep`) at two phases and two ways to unpack a Word, so what a step does and what a whole string does are proved
once, for any such routine.
-/
namespace Sys2Proof.Machine

/-! ### The step of each phase -/

section Phases
variable {s : State} {p : Word}

theorem step_of_getcWait (hrs : s.rs = .running) (hts : s.ts = .getcWait) : step s = .next (getcWaitStep s.land) := by
  rw [step_of_phase hrs (by simp [hts])]
  simp only [trapFsmStep, State.land_ts, hts]

theorem step_of_inWait (hrs : s.rs = .running) (hts : s.ts = .inWait) : step s = .next (inWaitStep s.land) := by
  rw [step_of_phase hrs (by simp [hts])]
  simp only [trapFsmStep, State.land_ts, hts]

theorem step_of_putsRun (hrs : s.rs = .running) (hts : s.ts = .putsRun p) : step s = .next (putsStep p s.land) := by
  rw [step_of_phase hrs (by simp [hts])]
  simp only [trapFsmStep, State.land_ts, hts]

theorem step_of_putspRun (hrs : s.rs = .running) (hts : s.ts = .putspRun p) : step s = .next (putspStep p s.land) := by
  rw [step_of_phase hrs (by simp [hts])]
  simp only [trapFsmStep, State.land_ts, hts]

end Phases

/-! ### The landing of the host's bytes: all but the input and what is to come stays -/

theorem State.land_regsSame (s : State) : RegsSame s s.land := fun _ => State.land_reg ..

theorem State.land_memSame (s : State) : MemSame s s.land := fun _ => State.land_peek ..

/-! ### The waiting routines -/

section Waiting
variable {s : State} {b : Byte} {rest : List Byte}

theorem getcWaitStep_of_cons (h : s.input = b :: rest) :
    getcWaitStep s = trapReturn ((s.setInput rest).setReg .r0 (zext b)) := by
  simp only [getcWaitStep, h]

theorem inWaitStep_of_cons (h : s.input = b :: rest) :
    inWaitStep s = trapReturn (((s.setInput rest).emit [b]).setReg .r0 (zext b)) := by
  simp only [inWaitStep, h]

theorem getcWaitStep_of_nil (h : s.input = []) : getcWaitStep s = s := by
  simp only [getcWaitStep, h]

theorem inWaitStep_of_nil (h : s.input = []) : inWaitStep s = s := by
  simp only [inWaitStep, h]

/-- The end of both routines: the byte in `x[0]`, and the phase IDLE. -/
theorem takeByte_reg_r0 (t : State) (b : Byte) : ((trapReturn (t.setReg .r0 (zext b))).reg .r0).toNat = b.toNat := by
  rw [trapReturn, State.setTs_reg, State.setReg_reg_self, zext_toNat]

theorem takeByte_regsSameBut (t : State) (b : Byte) : RegsSameBut .r0 t (trapReturn (t.setReg .r0 (zext b))) :=
  State.setReg_regsSameBut t .r0 (zext b)

end Waiting

/-- Settles O39: each step is the byte taken, echoed or not, and then written to `x[0]`. -/
theorem waitingRoutinesTakeOneByte : Obligations.WaitingRoutinesTakeOneByte := by
  intro s b rest hrs hin
  have hland : s.land.rs = .running := (State.land_rs s).trans hrs
  refine ⟨fun hts => ⟨_, step_of_getcWait hrs hts, ?getc⟩, fun hts => ⟨_, step_of_inWait hrs hts, ?inp⟩⟩
  case getc =>
    rw [getcWaitStep_of_cons hin]
    exact ⟨State.land_output s, takeByte_reg_r0 _ b,
      (State.land_regsSame s).trans_regsSameBut (takeByte_regsSameBut _ b), rfl, rfl, hland, State.land_pc s,
      State.land_cond s, State.land_memSame s, ⟨rfl, rfl⟩⟩
  case inp =>
    rw [inWaitStep_of_cons hin]
    exact ⟨congrArg (· ++ [b]) (State.land_output s), takeByte_reg_r0 _ b,
      (State.land_regsSame s).trans_regsSameBut (takeByte_regsSameBut _ b), rfl, rfl, hland, State.land_pc s,
      State.land_cond s, State.land_memSame s, ⟨rfl, rfl⟩⟩

/-- Settles O40: the step of either phase with no byte pending is the landing alone. -/
theorem waitingRoutinesHoldWithoutInput : Obligations.WaitingRoutinesHoldWithoutInput := by
  rintro s hrs (hts | hts) hin
  · rw [step_of_getcWait hrs hts, getcWaitStep_of_nil hin]
  · rw [step_of_inWait hrs hts, inWaitStep_of_nil hin]

/-! ### One Word of a string -/

/-- The step shared by PUTS and PUTSP: `phase` is the routine's phase at an address, `bytes` what it emits for a
Word. -/
def stringStep (phase : Word → TrapPhase) (bytes : Word → List Byte) (p : Word) (s : State) : State :=
  if (memRead p s).1 = 0 then trapReturn (memRead p s).2
  else ((memRead p s).2.emit (bytes (memRead p s).1)).setTs (phase (p + 1))

/-- What PUTS emits for a Word. -/
def putsBytes (w : Word) : List Byte := [lowByte w]

theorem putsStep_eq_stringStep : putsStep = stringStep .putsRun putsBytes := rfl

theorem putspStep_eq_stringStep : putspStep = stringStep .putspRun packedBytes := rfl

section StringStep
variable {phase : Word → TrapPhase} {bytes : Word → List Byte} {p : Word} {s : State}

theorem stringStep_of_zero (h : (memRead p s).1 = 0) : stringStep phase bytes p s = trapReturn (memRead p s).2 :=
  if_pos h

theorem stringStep_of_ne_zero (h : (memRead p s).1 ≠ 0) :
    stringStep phase bytes p s = ((memRead p s).2.emit (bytes (memRead p s).1)).setTs (phase (p + 1)) :=
  if_neg h

/-- A string step writes the phase and the output; what else changes is the bus read's. -/
theorem stringStep_frame : RegsSame s (stringStep phase bytes p s) ∧ (stringStep phase bytes p s).pc = s.pc ∧
    (stringStep phase bytes p s).cond = s.cond ∧ (stringStep phase bytes p s).rs = s.rs ∧
    MemSame (memRead p s).2 (stringStep phase bytes p s) ∧
    (stringStep phase bytes p s).input = (memRead p s).2.input ∧ HostSame s (stringStep phase bytes p s) := by
  unfold stringStep
  split <;> exact ⟨memRead_regsSame p s, memRead_pc p s, memRead_cond p s, (memRead_controlSame p s).rs, fun _ => rfl,
    rfl, (memRead_hostSame p s).arrivals, (memRead_hostSame p s).cfg⟩

theorem stringStep_ts_output_of_zero (h : (memRead p s).1 = 0) :
    (stringStep phase bytes p s).ts = .idle ∧ (stringStep phase bytes p s).output = s.output := by
  rw [stringStep_of_zero h]
  exact ⟨rfl, memRead_output p s⟩

theorem stringStep_ts_output_of_ne_zero (h : (memRead p s).1 ≠ 0) :
    (stringStep phase bytes p s).ts = phase (p + 1) ∧
      (stringStep phase bytes p s).output = s.output ++ bytes (memRead p s).1 := by
  rw [stringStep_of_ne_zero h]
  exact ⟨rfl, congrArg (· ++ _) (memRead_output p s)⟩

end StringStep

theorem lowByte_eq_ofNat (w : Word) : lowByte w = BitVec.ofNat 8 (w.toNat % 256) := by
  rw [← lowByte_toNat, BitVec.ofNat_toNat, BitVec.setWidth_eq]

theorem highByte_toNat (w : Word) : (highByte w).toNat = w.toNat / 256 := by
  have hlt : w.toNat < 65536 := w.isLt
  rw [highByte, BitVec.extractLsb'_toNat, Nat.shiftRight_eq_div_pow]
  omega

theorem packedBytes_eq (w : Word) : packedBytes w = BitVec.ofNat 8 (w.toNat % 256) ::
    (if w.toNat / 256 = 0 then [] else [BitVec.ofNat 8 (w.toNat / 256)]) := by
  have hzero : highByte w = 0 ↔ w.toNat / 256 = 0 := by
    rw [← BitVec.toNat_inj, highByte_toNat]
    rfl
  have hhigh : highByte w = BitVec.ofNat 8 (w.toNat / 256) := by
    rw [← highByte_toNat, BitVec.ofNat_toNat, BitVec.setWidth_eq]
  simp only [packedBytes, hzero, ← lowByte_eq_ofNat, ← hhigh]
  split <;> rfl

/-- The step of a string phase, for any routine of this kind, in a machine where bytes may land. -/
theorem stringStep_land {phase : Word → TrapPhase} {bytes : Word → List Byte} {p : Word} {s : State}
    (hrs : s.rs = .running) :
    ((memRead p s.land).1 = 0 →
      (stringStep phase bytes p s.land).ts = .idle ∧ (stringStep phase bytes p s.land).output = s.output) ∧
    ((memRead p s.land).1 ≠ 0 → (stringStep phase bytes p s.land).ts = phase (p + 1) ∧
      (stringStep phase bytes p s.land).output = s.output ++ bytes (memRead p s.land).1) ∧
    RegsSame s (stringStep phase bytes p s.land) ∧ (stringStep phase bytes p s.land).pc = s.pc ∧
    (stringStep phase bytes p s.land).cond = s.cond ∧ (stringStep phase bytes p s.land).rs = .running ∧
    MemSame (memRead p s.land).2 (stringStep phase bytes p s.land) ∧
    (stringStep phase bytes p s.land).input = (memRead p s.land).2.input ∧
    HostSame s.land (stringStep phase bytes p s.land) := by
  obtain ⟨hregs, hpc, hcond, hrun, hread⟩ :=
    stringStep_frame (phase := phase) (bytes := bytes) (p := p) (s := s.land)
  refine ⟨fun h => ?zero, fun h => ?word, (State.land_regsSame s).trans hregs, hpc.trans (State.land_pc s),
    hcond.trans (State.land_cond s), hrun.trans ((State.land_rs s).trans hrs), hread⟩
  case zero =>
    rw [← State.land_output s]
    exact stringStep_ts_output_of_zero h
  case word =>
    rw [← State.land_output s]
    exact stringStep_ts_output_of_ne_zero h

/-- Settles O41: both routines' steps are `stringStep`. -/
theorem stringRoutinesEmitOneWord : Obligations.StringRoutinesEmitOneWord := by
  refine fun s p hrs =>
    ⟨fun hts => ⟨_, step_of_putsRun hrs hts, ?puts⟩, fun hts => ⟨_, step_of_putspRun hrs hts, ?putsp⟩⟩
  case puts =>
    rw [putsStep_eq_stringStep, ← lowByte_eq_ofNat]
    exact stringStep_land hrs
  case putsp =>
    rw [putspStep_eq_stringStep, ← packedBytes_eq]
    exact stringStep_land hrs

/-! ### A whole string -/

/-- What a string routine never touches: registers, `pc`, `cond`, memory and the parameters; and it takes no byte of the
input, pending or to come. -/
structure Undisturbed (s t : State) : Prop where
  regs : RegsSame s t
  pc : t.pc = s.pc
  cond : t.cond = s.cond
  mem : MemSame s t
  bytes : t.input ++ t.arrivals.flatten = s.input ++ s.arrivals.flatten
  cfg : t.cfg = s.cfg

namespace Undisturbed
variable {s t u : State}

theorem trans (h : Undisturbed s t) (h' : Undisturbed t u) : Undisturbed s u where
  regs := h.regs.trans h'.regs
  pc := h'.pc.trans h.pc
  cond := h'.cond.trans h.cond
  mem := h.mem.trans h'.mem
  bytes := h'.bytes.trans h.bytes
  cfg := h'.cfg.trans h.cfg

theorem land (s : State) : Undisturbed s s.land where
  regs := State.land_regsSame s
  pc := State.land_pc s
  cond := State.land_cond s
  mem := State.land_memSame s
  bytes := State.land_bytes s
  cfg := State.land_cfg s

/-- Emitting bytes and writing the phase disturb nothing. -/
theorem emit_setTs (bytes : List Byte) (phase : TrapPhase) (h : Undisturbed s t) :
    Undisturbed s ((t.emit bytes).setTs phase) :=
  h.trans ⟨fun _ => rfl, rfl, rfl, fun _ => rfl, rfl, rfl⟩

theorem trapReturn (h : Undisturbed s t) : Undisturbed s (trapReturn t) :=
  h.trans ⟨fun _ => rfl, rfl, rfl, fun _ => rfl, rfl, rfl⟩

end Undisturbed

/-- Memory holds the non-zero Words `ws` from `p` on and then a zero Word, none of them at the keyboard-status
address. -/
structure StringAt (s : State) (p : Word) (ws : List Word) : Prop where
  words : ∀ k w, ws[k]? = some w → s.peek (p + BitVec.ofNat 16 k) = w ∧ w ≠ 0
  zero : s.peek (p + BitVec.ofNat 16 ws.length) = 0
  plain : ∀ k, k ≤ ws.length → p + BitVec.ofNat 16 k ≠ s.cfg.kbsrAddr

theorem add_one_add_ofNat (p : Word) (k : Nat) : p + 1 + BitVec.ofNat 16 k = p + BitVec.ofNat 16 (k + 1) := by
  rw [Nat.add_comm, BitVec.ofNat_add, BitVec.add_assoc]
  rfl

namespace StringAt
variable {s t : State} {p w : Word} {ws : List Word}

/-- The rest of a string, in any state with the same memory and parameters. -/
theorem tail (h : StringAt s p (w :: ws)) (same : Undisturbed s t) : StringAt t (p + 1) ws where
  words := fun k v hv => by
    rw [add_one_add_ofNat, same.mem]
    exact h.words (k + 1) v hv
  zero := by
    rw [add_one_add_ofNat, same.mem]
    exact h.zero
  plain := fun k hk => by
    rw [add_one_add_ofNat, same.cfg]
    exact h.plain (k + 1) (Nat.succ_le_succ hk)

theorem memRead_first (h : StringAt s p ws) : memRead p s.land = (s.peek p, s.land) := by
  have hp : p ≠ s.land.cfg.kbsrAddr := by
    rw [State.land_cfg]
    simpa using h.plain 0 (Nat.zero_le _)
  rw [memRead_of_ne hp, State.land_peek]

theorem memRead_nil (h : StringAt s p []) : memRead p s.land = (0, s.land) := by
  have hzero : s.peek p = 0 := by simpa using h.zero
  rw [h.memRead_first, hzero]

theorem memRead_cons (h : StringAt s p (w :: ws)) : memRead p s.land = (w, s.land) ∧ w ≠ 0 := by
  obtain ⟨hw, hne⟩ : s.peek p = w ∧ w ≠ 0 := by simpa using h.words 0 w rfl
  exact ⟨by rw [h.memRead_first, hw], hne⟩

end StringAt

/-- A whole string, for any routine whose every step is a `stringStep`: induction over the Words. -/
theorem run_string {phase : Word → TrapPhase} {bytes : Word → List Byte}
    (hstep : ∀ (s : State) (p : Word), s.rs = .running → s.ts = phase p →
      step s = .next (stringStep phase bytes p s.land))
    (ws : List Word) (s : State) (p : Word) (hrs : s.rs = .running) (hts : s.ts = phase p) (hws : StringAt s p ws) :
    ∃ t : State, Host.Core.run Sys2Proof.core (ws.length + 1) s = .next t ∧ t.output = s.output ++ ws.flatMap bytes ∧
      t.ts = .idle ∧ t.rs = .running ∧ Undisturbed s t := by
  induction ws generalizing s p with
  | nil =>
    have hs : step s = .next (trapReturn s.land) := by
      rw [hstep s p hrs hts, stringStep, hws.memRead_nil, if_pos rfl]
    exact ⟨_, run_next (M := Sys2Proof.core) hs 0, by simp [trapReturn], rfl, (State.land_rs s).trans hrs,
      (Undisturbed.land s).trapReturn⟩
  | cons w ws ih =>
    obtain ⟨hread, hne⟩ := hws.memRead_cons
    have hs : step s = .next ((s.land.emit (bytes w)).setTs (phase (p + 1))) := by
      rw [hstep s p hrs hts, stringStep, hread, if_neg hne]
    have hsame := (Undisturbed.land s).emit_setTs (bytes w) (phase (p + 1))
    obtain ⟨t, ht, hout, hidle, hrun, hrest⟩ :=
      ih ((s.land.emit (bytes w)).setTs (phase (p + 1))) (p + 1) ((State.land_rs s).trans hrs) rfl (hws.tail hsame)
    exact ⟨t, (run_next (M := Sys2Proof.core) hs _).trans ht, by simp [hout], hidle, hrun, hsame.trans hrest⟩

/-- Settles O42: PUTS is a string routine that emits one byte a Word. -/
theorem putsEmitsTheWholeString : Obligations.PutsEmitsTheWholeString := by
  intro ws s p hrs hts hwords hzero hplain
  have hbytes : ws.map (fun w => BitVec.ofNat 8 (w.toNat % 256)) = ws.flatMap putsBytes := by
    rw [List.map_eq_flatMap]
    exact List.flatMap_congr fun w _ => by rw [putsBytes, lowByte_eq_ofNat]
  rw [hbytes]
  obtain ⟨t, ht, hout, hidle, hrun, hsame⟩ := run_string (phase := .putsRun) (bytes := putsBytes)
    (fun _ _ hrs hts => step_of_putsRun hrs hts) ws s p hrs hts ⟨hwords, hzero, hplain⟩
  exact ⟨t, ht, hout, hidle, hrun, hsame.regs, hsame.pc, hsame.cond, hsame.mem, hsame.bytes, hsame.cfg⟩

/-- Settles O43: PUTSP is a string routine that unpacks each Word. -/
theorem putspEmitsTheWholeString : Obligations.PutspEmitsTheWholeString := by
  intro ws s p hrs hts hwords hzero hplain
  simp only [← packedBytes_eq]
  obtain ⟨t, ht, hout, hidle, hrun, hsame⟩ := run_string (phase := .putspRun) (bytes := packedBytes)
    (fun _ _ hrs hts => step_of_putspRun hrs hts) ws s p hrs hts ⟨hwords, hzero, hplain⟩
  exact ⟨t, ht, hout, hidle, hrun, hsame.regs, hsame.pc, hsame.cond, hsame.mem, hsame.bytes, hsame.cfg⟩

end Sys2Proof.Machine
end

section
/-!
The step (30_encoding.md R50, 60_exceptions.md R141 to R154): which instructions leave the run state or emit, said once
(`exec_stops`, `exec_output`), and from them and `step_advances` what every step of the machine keeps.
-/
namespace Sys2Proof.Machine

/-! ### The unassigned opcodes -/

/-- Raising a fault writes the run state alone (R141). -/
theorem raise_frame (cause : FaultCause) (info : Word) (s : State) :
    (raise cause info s).ts = s.ts ∧ RegsSame s (raise cause info s) ∧ (raise cause info s).pc = s.pc ∧
      (raise cause info s).cond = s.cond ∧ MemSame s (raise cause info s) ∧ StreamsSame s (raise cause info s) ∧
      HostSame s (raise cause info s) :=
  ⟨State.setRs_ts .., fun _ => State.setRs_reg .., State.setRs_pc .., State.setRs_cond .., fun _ => State.setRs_peek ..,
    ⟨State.setRs_input .., State.setRs_output ..⟩, ⟨State.setRs_arrivals .., State.setRs_cfg ..⟩⟩

theorem exec_unassigned {i : Instr} {u : BitVec 12} (h : i = .rti u ∨ i = .res u) (s : State) :
    exec i s = .next (raise .illegalOpcode (encode s.cfg.opcodeMap i) s) := by
  rcases h with rfl | rfl <;> rfl

/-- Settles O44: both are a fault raised with the instruction's own Word, whose opcode bits no map changes. -/
theorem unassignedOpcodesRaiseIllegalOpcode : Obligations.UnassignedOpcodesRaiseIllegalOpcode :=
  ⟨fun _ _ hm hw => decode_of_fieldOpcode (o := .rti) hm hw, fun _ _ hm hw => decode_of_fieldOpcode (o := .res) hm hw,
    fun s _ => ⟨_, exec_unassigned (.inl rfl) s, rfl, raise_frame ..⟩,
    fun s _ => ⟨_, exec_unassigned (.inr rfl) s, rfl, raise_frame ..⟩⟩

/-! ### The instruction cycle -/

/-- Settles O46: the step of a running machine in IDLE is the cycle, whose fetch adds one to `pc`. -/
theorem stepRunsTheDecodedInstruction : Obligations.StepRunsTheDecodedInstruction := fun s _ hrs hts hi =>
  ⟨step_of_decode hrs hts hi, by rw [fetch_snd, State.setPc_pc, State.land_pc]⟩

theorem fetch_land_of_ne {s : State} (h : s.pc ≠ s.cfg.kbsrAddr) :
    fetch s.land = (s.peek s.pc, s.land.setPc (s.pc + 1)) := by
  rw [fetch_of_ne (by simpa using h), State.land_pc, State.land_peek]

/-- Settles O45: the fetch there changes `pc` alone, the Word decodes to RTI or RES, whose own Word it is, and the fault
changes the run state alone. -/
theorem illegalOpcodeChangesOnlyThePc : Obligations.IllegalOpcodeChangesOnlyThePc := by
  rintro s ⟨-, hmap, -, -⟩ hrs hts hpc hop
  obtain ⟨i, u, hiu, hi⟩ : ∃ i u, (i = .rti u ∨ i = .res u) ∧ decode s.cfg.opcodeMap (s.peek s.pc) = .ok i := by
    rcases hop with h | h
    · exact ⟨_, _, .inl rfl, decode_of_fieldOpcode (o := .rti) hmap h⟩
    · exact ⟨_, _, .inr rfl, decode_of_fieldOpcode (o := .res) hmap h⟩
  have hfetch := fetch_land_of_ne hpc
  have hi' : decode s.cfg.opcodeMap (fetch s.land).1 = .ok i := by
    rw [hfetch]
    exact hi
  have hstep : step s = .next (raise .illegalOpcode (s.peek s.pc) (s.land.setPc (s.pc + 1))) := by
    rw [step_of_decode hrs hts hi', exec_unassigned hiu, hfetch, State.setPc_cfg, State.land_cfg,
      encode_of_decode_unassigned hi hiu]
  exact ⟨_, hstep, rfl, rfl, State.land_regsSame s, State.land_cond s, (State.land_ts s).trans hts,
    State.land_memSame s, ⟨rfl, rfl⟩, ⟨rfl, rfl⟩⟩

/-! ### Which states have a step -/

theorem step_of_running {s : State} (hm : s.cfg.opcodeMap.wf) (hrs : s.rs = .running) : ∃ t, step s = .next t := by
  by_cases hts : s.ts = .idle
  · obtain ⟨o, ho⟩ := OpcodeMap.exists_opcodeAt hm (fieldOpcode (fetch s.land).1)
    have hi := decode_of_fieldOpcode hm (OpcodeMap.code_of_opcodeAt ho).symm
    rw [step_of_decode hrs hts hi]
    exact exec_completes _ _
  · exact ⟨_, step_of_phase hrs hts⟩

/-- Settles O47: every Word decodes, every instruction completes, and the trap FSM has a step in every other phase. -/
theorem onlyARunningMachineSteps : Obligations.OnlyARunningMachineSteps := fun _ =>
  ⟨fun ⟨_, hmap, _⟩ hrs => step_of_running hmap hrs, step_of_halted, fun _ _ => step_of_faulted⟩

/-! ### Which instructions leave RUNNING -/

/-- The instructions that end the run from `s`, with the run state each goes to (R149). The last is not well formed. -/
inductive Stops (s : State) : Instr → RunState → Prop
  | halt : Stops s .halt .halted
  | unassigned {i : Instr} {u : BitVec 12} (h : i = .rti u ∨ i = .res u) :
      Stops s i (.faulted .illegalOpcode (encode s.cfg.opcodeMap i))
  | unknownVector {u : BitVec 4} {v : BitVec 8} (h : serviceAt v = none) (hp : s.cfg.trapUnknownPolicy = .fault) :
      Stops s (.trap u v) (.faulted .unrecognizedTrap (encode s.cfg.opcodeMap (.trap u v)))
  | haltVector {u : BitVec 4} {v : BitVec 8} (h : serviceAt v = some .halt) : Stops s (.trap u v) .halted

/-- The dispatch of TRAP leaves RUNNING only for HALT's vector or an unknown one, and those leave the phase. -/
theorem trapDispatch_stops {s : State} (u : BitVec 4) (v : BitVec 8) (hrs : s.rs = .running) :
    (trapDispatch (encode s.cfg.opcodeMap (.trap u v)) v (linkReturn s)).rs = .running ∨
      (trapDispatch (encode s.cfg.opcodeMap (.trap u v)) v (linkReturn s)).ts = s.ts ∧
        Stops s (.trap u v) (trapDispatch (encode s.cfg.opcodeMap (.trap u v)) v (linkReturn s)).rs := by
  rcases trapDispatch_rs (s := linkReturn s) (encode s.cfg.opcodeMap (.trap u v)) v hrs with
    h | ⟨hv, h⟩ | ⟨hv, hp, h⟩
  · exact .inl h
  · rw [h]
    refine .inr ⟨?_, .haltVector hv⟩
    simp only [trapDispatch, hv]
    rfl
  · rw [h]
    refine .inr ⟨?_, .unknownVector hv hp⟩
    rw [trapDispatch_of_none hv]
    exact (unknownVector_ts_output ..).1

/-- What an instruction can do to the run state; one that leaves RUNNING leaves the phase. -/
theorem exec_stops {i : Instr} {s t : State} (h : exec i s = .next t) (hrs : s.rs = .running) :
    t.rs = .running ∨ t.ts = s.ts ∧ Stops s i t.rs := by
  cases i <;> cases h
  case addReg | addImm | andReg | andImm | not | lea | jmp | ret | jsr | jsrr | st | str => exact .inl hrs
  case br =>
    refine .inl ?_
    split <;> exact hrs
  case ld | ldr => exact .inl ((memRead_controlSame _ s).rs.trans hrs)
  case sti => exact .inl ((memRead_controlSame _ s).rs.trans hrs)
  case ldi => exact .inl (((memRead_controlSame _ s).trans (memRead_controlSame _ _)).rs.trans hrs)
  case getc | out | puts | inp | putsp => exact .inl hrs
  case trap u v => exact trapDispatch_stops u v hrs
  case halt => exact .inr ⟨rfl, .halt⟩
  case rti => exact .inr ⟨rfl, .unassigned (.inl rfl)⟩
  case res => exact .inr ⟨rfl, .unassigned (.inr rfl)⟩

/-- A step that leaves RUNNING is an instruction cycle, of an instruction that stops; IDLE stays. -/
theorem step_stops {s t : State} (h : step s = .next t) :
    s.rs = .running ∧ (t.rs = .running ∨ s.ts = .idle ∧ t.ts = .idle ∧
      ∃ i, decode s.cfg.opcodeMap (fetch s.land).1 = .ok i ∧ Stops (fetch s.land).2 i t.rs) := by
  obtain ⟨hrs, ⟨hts, i, hi, hx⟩ | ⟨-, rfl⟩⟩ := step_cases h
  · have hrs' : (fetch s.land).2.rs = .running := by simpa using hrs
    have hts' : (fetch s.land).2.ts = .idle := by simpa using hts
    refine ⟨hrs, (exec_stops hx hrs').imp_right ?_⟩
    rintro ⟨hphase, hstops⟩
    exact ⟨hts, hphase.trans hts', i, hi, hstops⟩
  · exact ⟨hrs, .inl ((trapFsmStep_rs s.land).trans ((State.land_rs s).trans hrs))⟩

/-- Settles O48: `step_stops`, where the Word a fault records is the fetched one since it decodes to the instruction,
and TRAP with HALT's vector is no Word's instruction. -/
theorem runStateChangesOnlyByTheTable : Obligations.RunStateChangesOnlyByTheTable := by
  intro s t h
  obtain ⟨hrs, hrun | ⟨hts, -, i, hi, hstops⟩⟩ := step_stops h
  · exact ⟨hrs, .inl hrun⟩
  · have hcfg : (fetch s.land).2.cfg = s.cfg := by simp
    refine ⟨hrs, .inr ⟨hts, i, hi, ?_⟩⟩
    generalize t.rs = r at hstops ⊢
    cases hstops with
    | halt => exact .inl ⟨rfl, rfl⟩
    | unassigned hu =>
      rw [hcfg, encode_of_decode_unassigned hi hu]
      exact .inr (.inl ⟨hu.imp (⟨_, ·⟩) (⟨_, ·⟩), rfl⟩)
    | unknownVector _ hp =>
      rw [hcfg] at hp ⊢
      rw [(encode_of_decode_trap hi).1]
      exact .inr (.inr ⟨⟨_, _, rfl⟩, hp, rfl⟩)
    | haltVector hv => simp [(encode_of_decode_trap hi).2] at hv

/-! ### Which steps emit -/

/-- An instruction that emits is one of three, or a TRAP term that is not well formed. -/
theorem exec_output {i : Instr} {s t : State} (h : exec i s = .next t) :
    t.output = s.output ∨ i = .out ∨ i = .inp ∨ i = .halt ∨ ∃ u v, i = .trap u v ∧ serviceAt v ≠ none := by
  cases i <;> cases h
  case out | inp | halt => simp
  case addReg | addImm | andReg | andImm | not | lea | jmp | ret | jsr | jsrr | st | str => exact .inl rfl
  case getc | puts | putsp | rti | res => exact .inl rfl
  case br =>
    refine .inl ?_
    split <;> rfl
  case ld | ldr | sti => exact .inl (memRead_output _ s)
  case ldi => exact .inl ((memRead_output _ _).trans (memRead_output _ s))
  case trap u v =>
    by_cases hv : serviceAt v = none
    · refine .inl ?_
      rw [trapDispatch_of_none hv]
      exact (unknownVector_ts_output ..).2
    · exact .inr (.inr (.inr (.inr ⟨u, v, rfl, hv⟩)))

theorem getcWaitStep_output (s : State) : (getcWaitStep s).output = s.output := by
  cases h : s.input with
  | nil => rw [getcWaitStep_of_nil h]
  | cons b rest =>
    rw [getcWaitStep_of_cons h]
    rfl

/-- Settles O49: in IDLE by `exec_output`, and of the four phases GETC_WAIT emits nothing. -/
theorem onlyTrapRoutinesEmit : Obligations.OnlyTrapRoutinesEmit := by
  intro s t h hne
  obtain ⟨hrs, ⟨hts, i, hi, hx⟩ | ⟨hphase, -⟩⟩ := step_cases h
  · refine .inr (.inr (.inr ⟨hts, ?_⟩))
    rcases exec_output hx with hsame | rfl | rfl | rfl | ⟨u, v, rfl, hv⟩
    · exact absurd (hsame.trans (by simp)) hne
    · exact .inl hi
    · exact .inr (.inl hi)
    · exact .inr (.inr hi)
    · exact absurd (encode_of_decode_trap hi).2 hv
  · cases hts : s.ts with
    | idle => exact absurd hts hphase
    | getcWait =>
      rw [step_of_getcWait hrs hts] at h
      cases h
      exact absurd ((getcWaitStep_output _).trans (State.land_output s)) hne
    | inWait => exact .inl rfl
    | putsRun p => exact .inr (.inl ⟨p, rfl⟩)
    | putspRun p => exact .inr (.inr (.inl ⟨p, rfl⟩))

/-! ### What never goes back -/

/-- Settles O50: landing emits nothing, and after it the step only adds bytes. -/
theorem outputOnlyGrows : Obligations.OutputOnlyGrows := fun s t h => by
  rw [← State.land_output s]
  exact (step_advances h).output

/-- Settles O51: landing keeps all bytes in order, and after it the step takes some from the front. -/
theorem inputIsTakenInOrder : Obligations.InputIsTakenInOrder := by
  intro s t h
  have hadv := step_advances h
  obtain ⟨taken, htaken⟩ := hadv.input
  exact ⟨taken, by rw [← State.land_bytes, htaken, hadv.arrivals, List.append_assoc]⟩

/-- Settles O52: neither the landing nor what follows it writes the parameters. -/
theorem parametersNeverChange : Obligations.ParametersNeverChange := fun s _ h =>
  (step_advances h).cfg.trans (State.land_cfg s)

/-- A step depends on the run state, the phase, and the state once the host's bytes have landed. -/
theorem step_congr {s s' : State} (hrs : s.rs = s'.rs) (hts : s.ts = s'.ts) (hland : s.land = s'.land) :
    step s = step s' := by
  simp only [step, hrs, hts, hland]

/-- Settles O53: both machines are the same once their batches have landed. -/
theorem arrivalsAreHostSupplies : Obligations.ArrivalsAreHostSupplies := by
  intro s batch later _ harr
  refine step_congr rfl rfl ?_
  simp [State.land, State.supply, harr]

/-! ### The invariant -/

/-- Settles O54: memory and parameters by `step_advances`, the phase by `step_stops`. -/
theorem stepKeepsTheInvariant : Obligations.StepKeepsTheInvariant := by
  intro s t hinv h
  have hadv := step_advances h
  refine ⟨hadv.mem_wf ((State.land_mem s).symm ▸ hinv.mem_wf), ?cfg, fun hstopped => ?idle⟩
  case cfg =>
    rw [parametersNeverChange s t h]
    exact hinv.cfg_wf
  case idle =>
    obtain ⟨-, hrun | ⟨-, hidle, -⟩⟩ := step_stops h
    · exact absurd hrun hstopped
    · exact hidle

end Sys2Proof.Machine
end

section
/-!
The host's side (70_reset_and_hazards.md, 60_exceptions.md R151): the invariant when the cycle begins, the image files
that the source does not settle (R166), and the exit status.
-/
namespace Sys2Proof.Machine

/-! ### The invariant when the cycle begins -/

theorem Memory.wf_loadImages {m : Memory} (hm : m.wf) (images : List (List Byte)) : (loadImages m images).wf := by
  induction images generalizing m with
  | nil => exact hm
  | cons image images ih => exact ih (Memory.wf_loadImage hm image)

/-- Settles O56: each image keeps the canonical form, from the empty list on. -/
theorem powerOnMeetsTheInvariant : Obligations.PowerOnMeetsTheInvariant := fun c images input arrivals hc =>
  ⟨Memory.wf_loadImages Memory.wf_reset images, hc, fun _ => State.powerOn_ts c images input arrivals⟩

/-- Settles O55: reset is a power-on with the default parameters, which R9 admits. -/
theorem resetMeetsTheInvariant : Obligations.ResetMeetsTheInvariant := by
  rw [Obligations.ResetMeetsTheInvariant, State.reset_eq_powerOn]
  exact powerOnMeetsTheInvariant .default [] [] [] (by decide)

/-! ### Odd image files -/

/-- A trailing odd byte adds no file word. -/
theorem imageWords_concat : ∀ (file : List Byte) (b : Byte), file.length % 2 = 0 →
    imageWords (file ++ [b]) = imageWords file
  | [], _, _ => rfl
  | [_], _, h => by simp at h
  | hi :: lo :: rest, b, h => by
    have hrest : rest.length % 2 = 0 := by
      rw [List.length_cons, List.length_cons] at h
      omega
    exact congrArg ((hi ++ lo) :: ·) (imageWords_concat rest b hrest)

/-- Settles O60: a load depends on the file words alone, and at most 2 bytes hold no data word. -/
theorem oddImageFilesLoadNothingMore : Obligations.OddImageFilesLoadNothingMore := by
  refine ⟨fun m file b n hn => ?trailing, fun m file hlen => ?short⟩
  case trailing =>
    have hwords := imageWords_concat file b (by omega)
    exact ⟨hwords, by rw [loadImage, hwords, loadImage]⟩
  case short =>
    match file with
    | [] | [_] | [_, _] => rfl

/-! ### The exit status -/

theorem causeCode_ne_zero {c : Config} (hc : c.wf) (cause : FaultCause) : causeCode c cause ≠ 0 := by
  obtain ⟨-, -, hillegal, htrap⟩ := hc
  cases cause with
  | illegalOpcode => exact hillegal
  | unrecognizedTrap => exact htrap

/-- Settles O59: the status by run state, and no admitted cause code is 0. -/
theorem exitStatusIsZeroOnlyOnHalt : Obligations.ExitStatusIsZeroOnlyOnHalt := by
  refine fun s => ⟨fun h => ?running, fun h => ?halted, fun info h => ?illegal, fun info h => ?trap, fun hc h => ?zero⟩
  case zero =>
    cases hrs : s.rs with
    | running => simp [exitStatus, hrs] at h
    | halted => rfl
    | faulted cause info => simp [exitStatus, hrs, causeCode_ne_zero hc] at h
  all_goals simp only [exitStatus, h, causeCode]

end Sys2Proof.Machine
end

section
/-!
The condition flags (10_state.md R16): the seven instructions that set them end in `writeResult`, all others and the
trap FSM keep them (`SetsOrKeeps`), and but for BR an instruction gives the same outcome, or one that differs in `cond`
alone, when `cond` is another (`exec_setCond`).
-/
namespace Sys2Proof.Machine

/-! ### Who sets the flags -/

/-- `exec i s` completes, with the flag of the destination if `i` has one and with the old flag if not. -/
def SetsOrKeeps (i : Instr) (s : State) : Prop :=
  ∃ t, exec i s = .next t ∧ (∀ dr, flagDest i = some dr → FlagsFrom t.cond (t.reg dr)) ∧
    (flagDest i = none → t.cond = s.cond)

section SetsOrKeeps
variable {i : Instr} {s : State}

theorem SetsOrKeeps.of_result {dr : Reg} {v : Word} {u : State} (hdest : flagDest i = some dr)
    (hx : exec i s = .next (writeResult dr v u)) : SetsOrKeeps i s := by
  refine ⟨_, hx, fun r hr => ?_, fun hnone => ?_⟩
  · obtain rfl : dr = r := Option.some.inj (hdest.symm.trans hr)
    exact writeResult_flagsFrom dr v u
  · rw [hdest] at hnone
    cases hnone

theorem SetsOrKeeps.of_cond {t : State} (hdest : flagDest i = none) (hx : exec i s = .next t)
    (hcond : t.cond = s.cond) : SetsOrKeeps i s := by
  refine ⟨t, hx, fun r hr => ?_, fun _ => hcond⟩
  rw [hdest] at hr
  cases hr

end SetsOrKeeps

theorem exec_setsOrKeeps (i : Instr) (s : State) : SetsOrKeeps i s := by
  cases i
  case addReg | addImm | andReg | andImm | not | lea | ld | ldi | ldr => exact .of_result rfl rfl
  case br n z p off9 =>
    by_cases h : branchTaken n z p s.cond = true
    · exact .of_cond rfl (exec_br_of_taken off9 h) (State.setPc_cond ..)
    · exact .of_cond rfl (exec_br_of_not_taken off9 h) rfl
  case jmp | ret | jsr | jsrr | st | str | rti | res => exact .of_cond rfl rfl rfl
  case sti => exact .of_cond rfl rfl (memRead_cond _ s)
  case trap u vec8 =>
    obtain ⟨-, -, -, hcond, -⟩ := trap_frame vec8 s (encode s.cfg.opcodeMap (.trap u vec8))
    exact .of_cond rfl (exec_trap u vec8 s) hcond
  case getc | out | puts | inp | putsp | halt => exact .of_cond rfl rfl rfl

theorem trapFsmStep_cond (s : State) : (trapFsmStep s).cond = s.cond := by
  unfold trapFsmStep
  split
  · rfl
  · unfold getcWaitStep
    split <;> rfl
  · unfold inWaitStep
    split <;> rfl
  · next p _ =>
    obtain ⟨-, -, hcond, -⟩ := stringStep_frame (phase := .putsRun) (bytes := putsBytes) (p := p) (s := s)
    exact hcond
  · next p _ =>
    obtain ⟨-, -, hcond, -⟩ := stringStep_frame (phase := .putspRun) (bytes := packedBytes) (p := p) (s := s)
    exact hcond

/-! ### Who reads them -/

section SetCond
variable (s : State) (c : Cond)

theorem keyboardPoll_setCond : keyboardPoll (s.setCond c) = (keyboardPoll s).setCond c := by
  cases h : s.input with
  | nil => rw [keyboardPoll_nil h, keyboardPoll_nil (s := s.setCond c) h]; rfl
  | cons b rest => rw [keyboardPoll_cons h, keyboardPoll_cons (s := s.setCond c) h]; rfl

theorem memRead_setCond (a : Word) : memRead a (s.setCond c) = ((memRead a s).1, (memRead a s).2.setCond c) := by
  by_cases h : a = s.cfg.kbsrAddr
  · rw [memRead_of_eq h, memRead_of_eq (s := s.setCond c) h, keyboardPoll_setCond]
    rfl
  · rw [memRead_of_ne h, memRead_of_ne (s := s.setCond c) h]
    rfl

theorem loadFrom_setCond (dr : Reg) (ea : Word) : loadFrom dr ea (s.setCond c) = loadFrom dr ea s := by
  rw [loadFrom, memRead_setCond]
  rfl

theorem pointerRead_setCond (off9 : BitVec 9) :
    pointerRead off9 (s.setCond c) = ((pointerRead off9 s).1, (pointerRead off9 s).2.setCond c) :=
  memRead_setCond s c _

theorem trapDispatch_setCond (word : Word) (vec8 : BitVec 8) :
    trapDispatch word vec8 (s.setCond c) = (trapDispatch word vec8 s).setCond c := by
  cases hv : serviceAt vec8 with
  | some v => cases v <;> simp only [trapDispatch, hv] <;> rfl
  | none =>
    rw [trapDispatch_of_none hv, trapDispatch_of_none hv]
    cases hp : s.cfg.trapUnknownPolicy with
    | fault =>
      rw [unknownVector_of_fault hp, unknownVector_of_fault (s := s.setCond c) hp]
      rfl
    | nop => rw [unknownVector_of_nop hp, unknownVector_of_nop (s := s.setCond c) hp]

/-- With another `cond`, the seven that set it give the same state, and all others but BR one that differs in `cond`
alone. -/
theorem exec_setCond {i : Instr} (hbr : ∀ n z p off9, i ≠ .br n z p off9) :
    exec i (s.setCond c) = exec i s ∨ ∃ t, exec i s = .next t ∧ exec i (s.setCond c) = .next (t.setCond c) := by
  cases i
  case addReg | addImm | andReg | andImm | not | lea => exact .inl rfl
  case ld | ldr => exact .inl (congrArg Host.Outcome.next (loadFrom_setCond ..))
  case ldi => exact .inl (by rw [exec_ldi, exec_ldi, pointerRead_setCond, loadFrom_setCond])
  case br n z p off9 => exact absurd rfl (hbr n z p off9)
  case jmp | ret | jsr | jsrr | st | str | rti | res => exact .inr ⟨_, rfl, rfl⟩
  case sti => exact .inr ⟨_, rfl, by rw [exec_sti, pointerRead_setCond]; rfl⟩
  case trap u vec8 => exact .inr ⟨_, rfl, congrArg Host.Outcome.next (trapDispatch_setCond (linkReturn s) c _ vec8)⟩
  case getc | out | puts | inp | putsp | halt => exact .inr ⟨_, rfl, rfl⟩

end SetCond

/-- Settles O10: `exec_setsOrKeeps` for the instructions, `trapFsmStep_cond` for the routines' steps, and
`exec_setCond` for the readers. -/
theorem flagsAreSetByExactlySeven : Obligations.FlagsAreSetByExactlySeven := by
  refine ⟨fun i s => exec_setsOrKeeps i s, fun s t h hts => ?routine, fun i s c hbr => ?reader⟩
  case routine =>
    obtain ⟨-, ⟨hidle, -⟩ | ⟨-, rfl⟩⟩ := step_cases h
    · exact absurd hidle hts
    · rw [trapFsmStep_cond, State.land_cond]
  case reader =>
    rcases exec_setCond s c hbr with hsame | ⟨t, ht, ht'⟩
    · obtain ⟨t, ht⟩ := exec_completes i s
      exact ⟨t, t, ht, hsame.trans ht, rfl⟩
    · exact ⟨t, t.setCond c, ht, ht', rfl⟩

end Sys2Proof.Machine
end
